-- ==== Sys2Proof/Word.lean ====
section
/-! DEFINITION. The value types of the CORE: byte, word, the four-word working value, the fixed-width ports and texts. -/

namespace Sys2Proof

/-- A byte, 8 bits, unsigned (`00_scope.md` section 6); also a character code (`43_text_codec.md` R110). -/
abbrev Byte := BitVec 8

/-- A word, 32 bits, unsigned (`00_scope.md` section 6). -/
abbrev Word := BitVec 32

/-- Four 32-bit words, index 0 the most significant (`10_state.md` R14, R15). -/
abbrev Words := Vector Word 4

/-- A byte port of 16 bytes, index 0 the first on the wire (`10_state.md` R12). -/
abbrev Buffer := Vector Byte 16

/-- A text, `T[0]` leftmost, its length explicit and without a terminator (`20_memory.md` R42). -/
abbrev Text := List Byte

/-- The text input port `T`, 255 characters wide (`10_state.md` R11, R19). -/
abbrev TextIn := Vector Byte 255

/-- The text output port `RT`, 49 characters wide (`10_state.md` R11, R19). -/
abbrev TextOut := Vector Byte 49

end Sys2Proof
end

