-- ==== Sys2Proof/Syntax.lean ====
section
/-! DEFINITION. The commands of the CORE as syntax: one constructor for each row of the opcode table. -/

namespace Sys2Proof

/-- The eight commands (`00_scope.md` R2) with the fields the command word gives them (`30_encoding.md` R51, R53, R55).
Lengths and the family selector are the unsigned 8-bit fields of the word; every value of a field is a legal encoding. -/
inductive Instr where
  /-- `PARSE`, format P: the family selector and the text length. -/
  | parse (family tlen : Byte)
  /-- `FORMAT`, format F: the declared length of port `A`. -/
  | format (lenA : Byte)
  /-- `SHL`, format N. -/
  | shl (lenA : Byte)
  /-- `SHR`, format N. -/
  | shr (lenA : Byte)
  /-- `AND`, format A: the declared lengths of ports `A` and `B`. -/
  | and (lenA lenB : Byte)
  /-- `ANDI`, format N. -/
  | andi (lenA : Byte)
  /-- `OR`, format A. -/
  | or (lenA lenB : Byte)
  /-- `ORI`, format N. -/
  | ori (lenA : Byte)
  deriving DecidableEq, Repr

end Sys2Proof
end

