-- ==== Sys2Proof/Decode.lean ====
section
/-! DEFINITION. The decoder of the 32-bit command word, total, with every refusal named, and its encoder; the opcode
table as data. -/

namespace Sys2Proof

/-- Why a word spells no command (`30_encoding.md` R58). -/
inductive DecodeError where
  /-- `rsv0` or `rsv1` is not zero. -/
  | reservedBits
  /-- `op` is 0 or 9..15. -/
  | noSuchOpcode
  /-- `f2` is not zero and the command has no second field. -/
  | unusedField
  deriving DecidableEq, Repr

/-- `op = CMD[3:0]` (`30_encoding.md` R50). -/
def opField (w : Word) : BitVec 4 := w.extractLsb' 0 4

/-- `rsv0 = CMD[7:4]` (`30_encoding.md` R50). -/
def rsv0Field (w : Word) : BitVec 4 := w.extractLsb' 4 4

/-- `f1 = CMD[15:8]` (`30_encoding.md` R50). -/
def f1Field (w : Word) : Byte := w.extractLsb' 8 8

/-- `f2 = CMD[23:16]` (`30_encoding.md` R50). -/
def f2Field (w : Word) : Byte := w.extractLsb' 16 8

/-- `rsv1 = CMD[31:24]` (`30_encoding.md` R50). -/
def rsv1Field (w : Word) : Byte := w.extractLsb' 24 8

/-- A command of a format whose `f2` must be zero (`30_encoding.md` R50, formats F and N). -/
def oneLength (i : Byte → Instr) (w : Word) : Except DecodeError Instr :=
  if f2Field w ≠ 0 then .error .unusedField else .ok (i (f1Field w))

/-- The decoder, total on all 32-bit words (`30_encoding.md` R61). -/
def decode (w : Word) : Except DecodeError Instr :=
  if rsv1Field w ≠ 0 ∨ rsv0Field w ≠ 0 then .error .reservedBits
  else
    match (opField w).toNat with
    | 1 => .ok (.parse (f1Field w) (f2Field w))
    | 2 => oneLength .format w
    | 3 => oneLength .shl w
    | 4 => oneLength .shr w
    | 5 => .ok (.and (f1Field w) (f2Field w))
    | 6 => oneLength .andi w
    | 7 => .ok (.or (f1Field w) (f2Field w))
    | 8 => oneLength .ori w
    | _ => .error .noSuchOpcode

/-- The command word of the given fields, its reserved fields zero (`30_encoding.md` R50). -/
def commandWord (f2 f1 : Byte) (op : BitVec 4) : Word := (0 : Byte) ++ f2 ++ f1 ++ (0 : BitVec 4) ++ op

/-- The encoder, `CMD = f2 * 2^16 + f1 * 2^8 + op` (`30_encoding.md` R61). -/
def encode : Instr → Word
  | .parse family tlen => commandWord tlen family 1
  | .format lenA => commandWord 0 lenA 2
  | .shl lenA => commandWord 0 lenA 3
  | .shr lenA => commandWord 0 lenA 4
  | .and lenA lenB => commandWord lenB lenA 5
  | .andi lenA => commandWord 0 lenA 6
  | .or lenA lenB => commandWord lenB lenA 7
  | .ori lenA => commandWord 0 lenA 8

/-- A row of the opcode table: `w` spells a command of the row when `w & mask = match` (`30_encoding.md` R52). -/
structure OpcodeRow where
  /-- The row's `match`. -/
  bits : Word
  /-- The row's `mask`. -/
  mask : Word
  deriving DecidableEq, Repr

/-- `w & mask = match` (`30_encoding.md` R52). -/
abbrev OpcodeRow.Spells (r : OpcodeRow) (w : Word) : Prop := w &&& r.mask = r.bits

/-- The row of each command, `match` and `mask` as the table prints them (`30_encoding.md` R52). -/
def Instr.row : Instr → OpcodeRow
  | .parse _ _ => ⟨0x00000001, 0xFF0000FF⟩
  | .format _ => ⟨0x00000002, 0xFFFF00FF⟩
  | .shl _ => ⟨0x00000003, 0xFFFF00FF⟩
  | .shr _ => ⟨0x00000004, 0xFFFF00FF⟩
  | .and _ _ => ⟨0x00000005, 0xFF0000FF⟩
  | .andi _ => ⟨0x00000006, 0xFFFF00FF⟩
  | .or _ _ => ⟨0x00000007, 0xFF0000FF⟩
  | .ori _ => ⟨0x00000008, 0xFFFF00FF⟩

/-- The eight rows in the table's order (`30_encoding.md` R52). -/
def opcodeTable : List OpcodeRow :=
  [(Instr.parse 0 0).row, (Instr.format 0).row, (Instr.shl 0).row, (Instr.shr 0).row,
   (Instr.and 0 0).row, (Instr.andi 0).row, (Instr.or 0 0).row, (Instr.ori 0).row]

/-- The command word of an instruction given as `nbits` bits of `w`, the bits above zero. A command word is one 32-bit
word on port `CMD`; it has no byte order (`30_encoding.md` R50, `20_memory.md` R33). -/
def tableWord (nbits w : Nat) : Word := BitVec.ofNat 32 (w % 2 ^ nbits)

/-- What the decoder reads from an instruction whose bits are `w`; no command is longer than one word (`30_encoding.md`
R59). -/
def decodeTableWord (nbits w : Nat) : Option Instr :=
  if nbits ≤ 32 then (decode (tableWord nbits w)).toOption else none

end Sys2Proof
end

