-- ==== Sys2Proof/Machine/Flags.lean ====
section
/-! DEFINITION. The CORE has no flags (`10_state.md` R17); its one condition output is the `STATUS` field of a response,
whose codes stand here. -/

namespace Sys2Proof.Machine

/-- The four statuses of a response (`30_encoding.md` R56). -/
inductive Status where
  /-- The command returned its result. -/
  | ok
  /-- The source's error kind for malformed input (`60_exceptions.md` R151). -/
  | invalidAddress
  /-- The family selector is neither IPv4 nor IPv6 (`60_exceptions.md` R152). -/
  | unsupportedFamily
  /-- The word spells no command (`60_exceptions.md` R154). -/
  | illegalCommand
  deriving DecidableEq, Repr

/-- The code of a status on the `STATUS` port (`30_encoding.md` R56). -/
def Status.code : Status → BitVec 2
  | .ok => 0
  | .invalidAddress => 1
  | .unsupportedFamily => 2
  | .illegalCommand => 3

end Sys2Proof.Machine
end

