-- ==== Sys2Proof/Config.lean ====
section
/-! DEFINITION. What is fixed when a CORE is built: the parameters `INT_W` and `LEN_RULE` of `00_scope.md` R4 and R5. -/

namespace Sys2Proof

/-- Parameter `INT_W`, the width of the native integer on port `N`: 32 or 64, no other (`00_scope.md` R4). -/
inductive IntWidth where
  | w32
  | w64
  deriving DecidableEq, Repr

/-- Parameter `LEN_RULE`, the validity test of AND and OR (`00_scope.md` R5, `41_boolean.md` R71). -/
inductive LenRule where
  | literal
  | strict
  deriving DecidableEq, Repr

/-- The configuration record `cfg` of `00_scope.md` section 4. -/
structure Config where
  /-- `INT_W` (R4). -/
  intWidth : IntWidth
  /-- `LEN_RULE` (R5). -/
  lenRule : LenRule
  deriving DecidableEq, Repr

/-- The spec's default configuration: `INT_W = 64`, `LEN_RULE = LITERAL` (R4, R5). -/
def Config.default : Config := { intWidth := .w64, lenRule := .literal }

end Sys2Proof
end

