-- ==== Sys2Proof/Machine/Operands.lean ====
section
/-! DEFINITION. The operand forms: declared lengths, the family selector, the text limit, and the integer of port `N`
as a shift count, as a value for the range test and as the second operand of ANDI and ORI. -/

namespace Sys2Proof.Machine

/-- `valid_len(l)`: the address lengths 4 and 16 (`00_scope.md` R7). -/
abbrev ValidLen (l : Byte) : Prop := l = 4 ∨ l = 16

/-- The lengths for which `load` and `store` are defined (`20_memory.md` R31, R34). -/
abbrev WholeWords (l : Byte) : Prop := l = 0 ∨ l = 4 ∨ l = 8 ∨ l = 12 ∨ l = 16

/-- The outcome of `check_two` (`41_boolean.md` R71). -/
inductive LengthVerdict where
  /-- The command has a defined result. -/
  | accepted
  /-- The command raises `InvalidAddress`. -/
  | invalid
  /-- `REFUSED`: the spec defines no result (`93_implementation_defined.md` U2). -/
  | undefinedResult
  deriving DecidableEq, Repr

/-- `check_two(len_a, len_b)`, the validity test of AND and OR, line by line (`41_boolean.md` R71). -/
def checkTwo (rule : LenRule) (lenA lenB : Byte) : LengthVerdict :=
  if rule = .literal ∧ ¬ (ValidLen lenA ∨ ValidLen lenB) then .invalid
  else if rule = .strict ∧ ¬ (ValidLen lenA ∧ ValidLen lenB) then .invalid
  else if ¬ WholeWords lenA ∨ ¬ WholeWords lenB then .undefinedResult
  else .accepted

/-- The two address families (`30_encoding.md` R55). -/
inductive Family where
  | v4
  | v6
  deriving DecidableEq, Repr

/-- The family selector field: `FAM_V4 = 4`, `FAM_V6 = 6`, every other code an unsupported family (`30_encoding.md` R55). -/
def familyOf (code : Byte) : Option Family :=
  if code = 4 then some .v4 else if code = 6 then some .v6 else none

/-- `TEXT_MAX`, the largest number of characters PARSE accepts (`00_scope.md` R6). -/
def textMax : Nat := 49

/-- The signed value of port `N`, two's complement at `INT_W` bits (`10_state.md` R13). The port is held as 64 lines, of
which a block with `INT_W = 32` has, and reads, only the low 32 (assumption 4). -/
def intValue (cfg : Config) (n : BitVec 64) : Int :=
  match cfg.intWidth with
  | .w32 => (n.setWidth 32).toInt
  | .w64 => n.toInt

/-- `lo = u[31:0]`, the low half of the integer's bit pattern (`41_boolean.md` R75). -/
def intLow (n : BitVec 64) : Word := n.setWidth 32

/-- `hi`: `u[63:32]` when `INT_W = 64`, zero when `INT_W = 32`, never a sign extension (`41_boolean.md` R75, R79). -/
def intHigh (cfg : Config) (n : BitVec 64) : Word :=
  match cfg.intWidth with
  | .w32 => 0
  | .w64 => n.extractLsb' 32 32

/-- The second operand `V` of ANDI and ORI (`41_boolean.md` R75). -/
def integerOperand (cfg : Config) (lenA : Byte) (n : BitVec 64) : Words :=
  if lenA = 4 then #v[intLow n, 0, 0, 0] else #v[0, 0, intHigh cfg n, intLow n]

/-- The precondition failure of ANDI and ORI: the length, or the signed value above `0xFFFFFFFF` on a 4-byte address
(`41_boolean.md` R76, R77). -/
abbrev IntegerInvalid (cfg : Config) (lenA : Byte) (n : BitVec 64) : Prop :=
  ¬ ValidLen lenA ∨ (lenA = 4 ∧ intValue cfg n > 0xFFFFFFFF)

/-- `check_shift`: the length, or a negative count (`42_shift.md` R90). -/
abbrev ShiftInvalid (cfg : Config) (lenA : Byte) (n : BitVec 64) : Prop :=
  ¬ ValidLen lenA ∨ intValue cfg n < 0

/-- The shift count as a natural number, for a count that is not negative (`42_shift.md` R90). -/
def shiftCount (cfg : Config) (n : BitVec 64) : Nat := (intValue cfg n).toNat

end Sys2Proof.Machine
end

