-- ==== Sys2Proof/Machine/State.lean ====
section
/-! DEFINITION. The state of the CORE as plain data: the build parameters, the host's actions still to come, the sampled
input ports, the working registers and the response port; and the ways a step can stop. -/

namespace Sys2Proof.Machine

/-- What the host presents at once: the command word and the data inputs (`10_state.md` R10, R11). -/
structure Command where
  /-- The command word `CMD`. -/
  cmd : Word
  /-- Port `A`, `A[0]` the first byte (R12). -/
  a : Buffer
  /-- Port `B` (R12). -/
  b : Buffer
  /-- Port `N` as 64 lines; with `INT_W = 32` only lines 31..0 exist (R13; assumption 4). -/
  n : BitVec 64
  /-- Port `T`, `T[0]` the first character (R19). -/
  t : TextIn
  deriving DecidableEq, Repr

/-- What the CORE presents in answer to one command (`10_state.md` R11). -/
structure Response where
  /-- `STATUS`, the code of `30_encoding.md` R56. -/
  status : BitVec 2
  /-- `RLEN`, how many bytes of `R` are the result. -/
  rlen : Byte
  /-- `R`, the result bytes. -/
  r : Buffer
  /-- `RTLEN`, how many characters of `RT` are the text. -/
  rtlen : Byte
  /-- `RT`, the result text. -/
  rt : TextOut
  deriving DecidableEq, Repr

/-- What the host can do to the CORE between two steps (`70_reset_and_hazards.md` R177). Reading a response changes
nothing (`20_memory.md` R37) and is no action here. -/
inductive HostAction where
  /-- The host issues a command and waits for its response. -/
  | issue (c : Command)
  /-- The host issues a command and applies reset while it is in progress (`70_reset_and_hazards.md` R171); any command, one
  marked REFUSED (`41_boolean.md` R71) included, which the reset then cuts off like any other (assumption 17). -/
  | issueAborted (c : Command)
  /-- The host applies reset while the CORE is idle (`70_reset_and_hazards.md` R170). -/
  | reset
  deriving DecidableEq, Repr

/-- The CORE between two host actions. It has no program counter, flags, control registers or memory (`10_state.md` R16,
R17, R18, `20_memory.md` R36). -/
structure State where
  /-- `INT_W` and `LEN_RULE`, fixed when the block is built; no command changes them (`10_state.md` R18). -/
  cfg : Config
  /-- The model's own field: what the host will do, first action first (`70_reset_and_hazards.md` R176, R177). -/
  host : List HostAction
  /-- The inputs as sampled when the last command was accepted (`10_state.md` R10). -/
  ports : Command
  /-- `W[0..3]`, the working value (`10_state.md` R14). -/
  w : Words
  /-- `V[0..3]`, the second operand (`10_state.md` R15). -/
  v : Words
  /-- `C`, the residual shift count (`10_state.md` R15). -/
  c : BitVec 5
  /-- The response port; `none` while no response is valid (`10_state.md` R23, `70_reset_and_hazards.md` R177). -/
  response : Option Response
  deriving DecidableEq, Repr

/-- The faults. The CORE has none: "no command, legal or illegal, can put the CORE in a state from which it stops
accepting commands" (`60_exceptions.md` R158), and its errors are responses (R150, R157). Nothing raises one. -/
inductive Fault : Type
  deriving DecidableEq, Repr

/-- The refusals. -/
inductive Refusal where
  /-- Raised by an arm of `exec` whose instruction has no meaning yet; no arm does. Safe: the run stops. -/
  | notModelled (mnemonic : String)
  /-- Raised by AND and OR under `LEN_RULE = LITERAL` with one valid length and one malformed length other than 0, 8 and
  12, which the spec leaves without a result and asks a model to refuse (`41_boolean.md` R71,
  `93_implementation_defined.md` U2). Not raised for a command that a reset cuts off (assumption 17). Safe: the run stops
  where a block would answer something. -/
  | undefinedLength (lenA lenB : Byte)
  deriving DecidableEq, Repr

/-- The zero working value. -/
def zeroWords : Words := Vector.replicate 4 0

/-- Input ports with every line zero. -/
def Command.idle : Command :=
  { cmd := 0, a := Vector.replicate 16 0, b := Vector.replicate 16 0, n := 0, t := Vector.replicate 255 0 }

/-- A CORE of configuration `cfg` right after reset, with nothing for the host to do (`10_state.md` R23). The sampled ports
are zero by choice (assumption 3). -/
def State.resetWith (cfg : Config) : State :=
  { cfg := cfg, host := [], ports := .idle, w := zeroWords, v := zeroWords, c := 0, response := none }

/-- The CORE right after reset in the spec's default configuration (`10_state.md` R23, `00_scope.md` R4, R5). -/
def State.reset : State := State.resetWith .default

end Sys2Proof.Machine
end

