-- ==== Sys2Proof/Machine/Ops.lean ====
section
/-! DEFINITION. The shared operations: the byte-order converter, `load` and `store`, the three shapes of a response,
raising an error, and what accepting a command and resetting do to the state. -/

namespace Sys2Proof.Machine

/-- What a step of the CORE answers. -/
abbrev Outcome := Host.Outcome State Fault Refusal

/-! ### The byte-order converter -/

/-- `be32`, four bytes to a word, big-endian (`20_memory.md` R30). -/
def be32 (b0 b1 b2 b3 : Byte) : Word := b0 ++ b1 ++ b2 ++ b3

/-- `byte_k(w) = w[31-8k : 24-8k]` for `k` = 0..3 (`20_memory.md` R30). -/
def byteOf (k : Nat) (w : Word) : Byte := w.extractLsb' (24 - 8 * k) 8

/-- `load(X, len)`: the first `len` bytes as four words, the words past them zero (`20_memory.md` R31). -/
def load (x : Buffer) (len : Byte) : Words :=
  Vector.ofFn fun i : Fin 4 =>
    if 4 * i.val + 3 < len.toNat then be32 x[4 * i.val] x[4 * i.val + 1] x[4 * i.val + 2] x[4 * i.val + 3] else 0

/-- The bytes `store(w, len)` puts on `R`: the first `len/4` words big-endian, zero beyond `len` (`20_memory.md` R32). -/
def storeBytes (w : Words) (len : Byte) : Buffer :=
  Vector.ofFn fun j : Fin 16 => if j.val < len.toNat then byteOf (j.val % 4) w[j.val / 4] else 0

/-- The eight 16-bit groups of a buffer, first in the text first (`20_memory.md` R44). -/
def groups (x : Buffer) : List (BitVec 16) :=
  List.ofFn fun i : Fin 8 => x[2 * i.val] ++ x[2 * i.val + 1]

/-- A result of fewer than 16 bytes on port `R`, zero beyond it (`60_exceptions.md` R150). -/
def bytesOut (bs : List Byte) : Buffer := Vector.ofFn fun j : Fin 16 => bs.getD j.val 0

/-- A text on port `RT`, zero beyond it (`10_state.md` R19). -/
def textOut (t : Text) : TextOut := Vector.ofFn fun j : Fin 49 => t.getD j.val 0

/-! ### Responses -/

/-- A successful response that carries bytes (`60_exceptions.md` R150). -/
def Response.bytes (len : Byte) (r : Buffer) : Response :=
  { status := Status.ok.code, rlen := len, r := r, rtlen := 0, rt := textOut [] }

/-- A successful response that carries a text (`60_exceptions.md` R150). -/
def Response.text (t : Text) : Response :=
  { status := Status.ok.code, rlen := 0, r := bytesOut [], rtlen := BitVec.ofNat 8 t.length, rt := textOut t }

/-- An error response: the code, and every other field zero (`60_exceptions.md` R153). -/
def Response.error (e : Status) : Response :=
  { status := e.code, rlen := 0, r := bytesOut [], rtlen := 0, rt := textOut [] }

/-! ### What a command does to the state -/

/-- The start of every command, before anything else: `W`, `V` and `C` are zeroed (`10_state.md` R22). -/
def State.begin (s : State) : State := { s with w := zeroWords, v := zeroWords, c := 0 }

/-- `W <- x`. -/
def State.setW (s : State) (x : Words) : State := { s with w := x }

/-- `V <- x`. -/
def State.setV (s : State) (x : Words) : State := { s with v := x }

/-- `C <- x`. -/
def State.setC (s : State) (x : BitVec 5) : State := { s with c := x }

/-- The CORE presents a response, which replaces the one before it (`10_state.md` R10, `70_reset_and_hazards.md` R177). -/
def State.respond (s : State) (r : Response) : State := { s with response := some r }

/-- `store(W, len)` and `STATUS <- OK` (`20_memory.md` R32, `60_exceptions.md` R150). -/
def State.store (s : State) (len : Byte) : State := s.respond (.bytes len (storeBytes s.w len))

/-- `raise e`: the command stops with the error response; nothing else is recorded, no mode or register is saved, and
control goes nowhere (`60_exceptions.md` R153, R157). There is no return from it (R158). -/
def State.raise (s : State) (e : Status) : State := s.respond (.error e)

/-! ### What the host does to the state -/

/-- The CORE accepts a command: all its inputs are sampled at that moment (`10_state.md` R10). -/
def State.accept (s : State) (c : Command) (rest : List HostAction) : State := { s with ports := c, host := rest }

/-- The answer to an illegal word: `IllegalCommand`, no data input read (`30_encoding.md` R58, `60_exceptions.md` R154). -/
def State.illegal (s : State) : State := s.begin.raise .illegalCommand

/-- Reset: idle, no response valid, working registers zero, the parameters unchanged (`10_state.md` R23,
`70_reset_and_hazards.md` R170). What the host has yet to do is the host's and stays. -/
def State.applyReset (s : State) : State := { State.resetWith s.cfg with host := s.host, ports := s.ports }

/-- The host puts one more command in front of what it is about to do; the data ports keep what they last showed. -/
def State.presentWord (s : State) (word : Word) : State :=
  { s with host := .issue { s.ports with cmd := word } :: s.host }

end Sys2Proof.Machine
end

