-- ==== Sys2Proof/Machine/Boolean.lean ====
section
/-! DEFINITION. The Boolean Combinators: AND, OR, ANDI, ORI (`41_boolean.md`). -/

namespace Sys2Proof.Machine

/-- `combine(f)`: `W[i] <- f(W[i], V[i])` on all four words (`41_boolean.md` R70). -/
def State.combine (f : Word → Word → Word) (s : State) : State :=
  s.setW (Vector.ofFn fun i : Fin 4 => f s.w[i.val] s.v[i.val])

/-- The common body of AND and OR (`41_boolean.md` R72, R73). -/
def combineAddresses (f : Word → Word → Word) (lenA lenB : Byte) (s : State) : Outcome :=
  let s := s.begin
  match checkTwo s.cfg.lenRule lenA lenB with
  | .invalid => .next (s.raise .invalidAddress)
  | .undefinedResult => .refused (.undefinedLength lenA lenB)
  | .accepted =>
    let s := s.setW (load s.ports.a lenA)
    let s := s.setV (load s.ports.b lenB)
    .next ((s.combine f).store lenA)

/-- The common body of ANDI and ORI (`41_boolean.md` R76, R77). -/
def combineInteger (f : Word → Word → Word) (lenA : Byte) (s : State) : Outcome :=
  let s := s.begin
  if IntegerInvalid s.cfg lenA s.ports.n then .next (s.raise .invalidAddress)
  else
    let s := s.setW (load s.ports.a lenA)
    let s := s.setV (integerOperand s.cfg lenA s.ports.n)
    .next ((s.combine f).store lenA)

/-- AND (`41_boolean.md` R72). -/
def execAnd (lenA lenB : Byte) (s : State) : Outcome := combineAddresses (· &&& ·) lenA lenB s

/-- OR (`41_boolean.md` R73). -/
def execOr (lenA lenB : Byte) (s : State) : Outcome := combineAddresses (· ||| ·) lenA lenB s

/-- ANDI (`41_boolean.md` R76). -/
def execAndi (lenA : Byte) (s : State) : Outcome := combineInteger (· &&& ·) lenA s

/-- ORI (`41_boolean.md` R77). -/
def execOri (lenA : Byte) (s : State) : Outcome := combineInteger (· ||| ·) lenA s

end Sys2Proof.Machine
end

