-- ==== Sys2Proof/Machine/Shift.lean ====
section
/-! DEFINITION. The Shift Engine: SHL and SHR (`42_shift.md`). -/

namespace Sys2Proof.Machine

/-- `word_right(W, q)`, all words at once (`42_shift.md` R92). -/
def wordRight (w : Words) (q : Nat) : Words :=
  Vector.ofFn fun i : Fin 4 => if q ≤ i.val then w[i.val - q] else 0

/-- `bit_right(W, C)`, all words from the old ones; with `C = 0` nothing is shifted (`42_shift.md` R93, R94). -/
def bitRight (w : Words) (c : BitVec 5) : Words :=
  if c = 0 then w
  else
    Vector.ofFn fun i : Fin 4 =>
      if i.val = 0 then w[0] >>> c.toNat else (w[i.val - 1] <<< (32 - c.toNat)) ||| (w[i.val] >>> c.toNat)

/-- `word_left(W, q)`, all words at once (`42_shift.md` R97). -/
def wordLeft (w : Words) (q : Nat) : Words :=
  Vector.ofFn fun i : Fin 4 => if h : i.val + q ≤ 3 then w[i.val + q] else 0

/-- `bit_left(W, C)`, all words from the old ones; with `C = 0` nothing is shifted (`42_shift.md` R98, R94). -/
def bitLeft (w : Words) (c : BitVec 5) : Words :=
  if c = 0 then w
  else
    Vector.ofFn fun i : Fin 4 =>
      if h : i.val < 3 then (w[i.val + 1] >>> (32 - c.toNat)) ||| (w[i.val] <<< c.toNat) else w[3] <<< c.toNat

/-- Load and shift, for a count below 128; from 128 on nothing is loaded and `W` stays zero (`42_shift.md` R91, R95, R96). -/
def State.shift (wordStep : Words → Nat → Words) (bitStep : Words → BitVec 5 → Words) (lenA : Byte) (s : State) : State :=
  let count := shiftCount s.cfg s.ports.n
  if count < 128 then
    let s := s.setW (load s.ports.a lenA)
    let s := s.setC (BitVec.ofNat 5 (count % 32))
    let s := s.setW (wordStep s.w (count / 32))
    s.setW (bitStep s.w s.c)
  else s

/-- The common body of SHL and SHR (`42_shift.md` R95, R96). -/
def shiftAddress (wordStep : Words → Nat → Words) (bitStep : Words → BitVec 5 → Words) (lenA : Byte) (s : State) : Outcome :=
  let s := s.begin
  if ShiftInvalid s.cfg lenA s.ports.n then .next (s.raise .invalidAddress)
  else .next ((s.shift wordStep bitStep lenA).store lenA)

/-- SHR (`42_shift.md` R95). -/
def execShr (lenA : Byte) (s : State) : Outcome := shiftAddress wordRight bitRight lenA s

/-- SHL (`42_shift.md` R96). -/
def execShl (lenA : Byte) (s : State) : Outcome := shiftAddress wordLeft bitLeft lenA s

end Sys2Proof.Machine
end

