-- ==== Sys2Proof/Machine/Text.lean ====
section
/-! DEFINITION. The text forms of an address: the characters, the canonical text of 4 and of 16 bytes, and the procedures
that read a text back (`43_text_codec.md` R110 to R130). -/

namespace Sys2Proof.Machine

/-! ### Characters -/

/-- `"."` (`43_text_codec.md` R110). -/
def dot : Byte := 0x2E

/-- `":"` (`43_text_codec.md` R110). -/
def colon : Byte := 0x3A

/-- The digit character of a value below 10 (`43_text_codec.md` R110). -/
def decChar (d : Nat) : Byte := BitVec.ofNat 8 (0x30 + d)

/-- The lower-case hexadecimal character of a value below 16 (`43_text_codec.md` R110, R116). -/
def hexChar (d : Nat) : Byte := if d < 10 then decChar d else BitVec.ofNat 8 (0x61 + (d - 10))

/-- The value of a decimal digit character (`43_text_codec.md` R110). -/
def decValue (c : Byte) : Option Nat :=
  if 0x30 ≤ c.toNat ∧ c.toNat ≤ 0x39 then some (c.toNat - 0x30) else none

/-- The value of a hexadecimal digit character of either case (`43_text_codec.md` R110). -/
def hexValue (c : Byte) : Option Nat :=
  if 0x30 ≤ c.toNat ∧ c.toNat ≤ 0x39 then some (c.toNat - 0x30)
  else if 0x61 ≤ c.toNat ∧ c.toNat ≤ 0x66 then some (c.toNat - 0x61 + 10)
  else if 0x41 ≤ c.toNat ∧ c.toNat ≤ 0x46 then some (c.toNat - 0x41 + 10)
  else none

/-! ### The canonical texts -/

/-- `dec(b)`, the decimal numeral with no leading zeros (`43_text_codec.md` R112). -/
def dec (b : Byte) : Text :=
  let n := b.toNat
  if n < 10 then [decChar n]
  else if n < 100 then [decChar (n / 10), decChar (n % 10)]
  else [decChar (n / 100), decChar (n / 10 % 10), decChar (n % 10)]

/-- `hex(g)`, the lower-case hexadecimal numeral with no leading zeros (`43_text_codec.md` R116). -/
def hex (g : BitVec 16) : Text :=
  let n := g.toNat
  if n < 0x10 then [hexChar n]
  else if n < 0x100 then [hexChar (n / 0x10), hexChar (n % 0x10)]
  else if n < 0x1000 then [hexChar (n / 0x100), hexChar (n / 0x10 % 0x10), hexChar (n % 0x10)]
  else [hexChar (n / 0x1000), hexChar (n / 0x100 % 0x10), hexChar (n / 0x10 % 0x10), hexChar (n % 0x10)]

/-- The items of a list separated by single characters `sep` (`join` of `43_text_codec.md` R117, and the dots of R113). -/
def joinWith (sep : Byte) : List Text → Text
  | [] => []
  | [t] => t
  | t :: ts => t ++ sep :: joinWith sep ts

/-- `format4(X)` (`43_text_codec.md` R113). -/
def format4 (x : List Byte) : Text := joinWith dot (x.map dec)

/-- How many zero groups stand at the front of a list of groups. -/
def zeroRun : List (BitVec 16) → Nat
  | [] => 0
  | g :: gs => if g = 0 then zeroRun gs + 1 else 0

/-- The start and length of the compressed run in a list of groups numbered from `s`: the longest zero run of at least
two groups, the leftmost on a tie (`43_text_codec.md` R115). -/
def compressedRunFrom (s : Nat) : List (BitVec 16) → Option (Nat × Nat)
  | [] => none
  | g :: gs =>
    let l := zeroRun (g :: gs)
    match compressedRunFrom (s + 1) gs with
    | none => if 2 ≤ l then some (s, l) else none
    | some (s', l') => if l' ≤ l then some (s, l) else some (s', l')

/-- The compressed run of a list of groups (`43_text_codec.md` R115). -/
def compressedRun (gs : List (BitVec 16)) : Option (Nat × Nat) := compressedRunFrom 0 gs

/-- The colon-hex form of a list of groups (`43_text_codec.md` R117). -/
def formatGroups (gs : List (BitVec 16)) : Text :=
  match compressedRun gs with
  | none => joinWith colon (gs.map hex)
  | some (s, l) =>
    joinWith colon ((gs.take s).map hex) ++ [colon, colon] ++ joinWith colon ((gs.drop (s + l)).map hex)

/-- `format6(X)`, never with a dotted-decimal tail (`43_text_codec.md` R117, R118). -/
def format6 (x : Buffer) : Text := formatGroups (groups x)

/-! ### Reading a text -/

/-- A text cut at every `sep` into its pieces; a leading or trailing `sep` yields an empty piece (`43_text_codec.md`
R130). -/
def cutAt (sep : Byte) : Text → List Text
  | [] => [[]]
  | c :: cs =>
    if c = sep then [] :: cutAt sep cs
    else
      match cutAt sep cs with
      | [] => [[c]]
      | p :: ps => (c :: p) :: ps

/-- `field` of the IPv4 grammar: one to three digits, no leading zero on more than one, at most 255 (`43_text_codec.md`
R126). -/
def parseField (t : Text) : Option Byte :=
  match t.mapM decValue with
  | some [a] => some (BitVec.ofNat 8 a)
  | some [a, b] => if a = 0 then none else some (BitVec.ofNat 8 (10 * a + b))
  | some [a, b, c] => if a = 0 ∨ 255 < 100 * a + 10 * b + c then none else some (BitVec.ofNat 8 (100 * a + 10 * b + c))
  | _ => none

/-- `parse4(text)`: exactly four fields and three dots (`43_text_codec.md` R126). -/
def parse4 (t : Text) : Option (List Byte) :=
  let pieces := cutAt dot t
  if pieces.length = 4 then pieces.mapM parseField else none

/-- A group of one to four hexadecimal digits, as its value (`43_text_codec.md` R127). -/
def parseGroup (t : Text) : Option Nat :=
  if 1 ≤ t.length ∧ t.length ≤ 4 then (t.mapM hexValue).map (List.foldl (fun v d => 16 * v + d) 0) else none

/-- The two bytes of a group, `[v div 256, v mod 256]` (`43_text_codec.md` R127). -/
def groupBytes (v : Nat) : List Byte := [BitVec.ofNat 8 (v / 256), BitVec.ofNat 8 (v % 256)]

/-- The pieces of `items` in turn; only the last may be a dotted-decimal tail, and only where one is allowed
(`43_text_codec.md` R130). -/
def itemBytes (v4Allowed : Bool) : List Text → Option (List Byte)
  | [] => some []
  | [p] => if v4Allowed ∧ dot ∈ p then parse4 p else (parseGroup p).map groupBytes
  | p :: ps => do
    let v ← parseGroup p
    let rest ← itemBytes v4Allowed ps
    return groupBytes v ++ rest

/-- `items(s, v4_allowed)` (`43_text_codec.md` R130). -/
def items (v4Allowed : Bool) (t : Text) : Option (List Byte) :=
  if t = [] then some [] else itemBytes v4Allowed (cutAt colon t)

/-- At how many positions `pat` occurs in a text. -/
def occurrences (pat : Text) : Text → Nat
  | [] => 0
  | c :: cs => (if pat.isPrefixOf (c :: cs) then 1 else 0) + occurrences pat cs

/-- The parts of a text before and after its first `"::"` (`43_text_codec.md` R130). -/
def splitDouble : Text → Option (Text × Text)
  | [] => none
  | c :: cs =>
    if [colon, colon].isPrefixOf (c :: cs) then some ([], cs.drop 1)
    else (splitDouble cs).map fun (l, r) => (c :: l, r)

/-- `parse6(text)`, the procedure of `43_text_codec.md` R130, equivalent to the grammar of R127. -/
def parse6 (t : Text) : Option (List Byte) :=
  if 0 < occurrences [colon, colon, colon] t ∨ 1 < occurrences [colon, colon] t then none
  else
    match splitDouble t with
    | some (l, r) => do
      let left ← items false l
      let right ← items true r
      if left.length + right.length ≤ 14 then
        some (left ++ List.replicate (16 - left.length - right.length) 0 ++ right)
      else none
    | none => do
      let bytes ← items true t
      if bytes.length = 16 then some bytes else none

end Sys2Proof.Machine
end

