-- ==== Sys2Proof/Machine/TextCodec.lean ====
section
/-! DEFINITION. The Text Codec: FORMAT and PARSE (`43_text_codec.md`). -/

namespace Sys2Proof.Machine

/-- FORMAT; the working value is not used, and a valid length always succeeds (`43_text_codec.md` R111, R120). -/
def execFormat (lenA : Byte) (s : State) : Outcome :=
  let s := s.begin
  if ¬ ValidLen lenA then .next (s.raise .invalidAddress)
  else if lenA = 4 then .next (s.respond (.text (format4 (s.ports.a.toList.take 4))))
  else .next (s.respond (.text (format6 s.ports.a)))

/-- The text PARSE reads: `T[0..tlen-1]` (`43_text_codec.md` R125). -/
def Command.text (c : Command) (tlen : Byte) : Text := c.t.toList.take tlen.toNat

/-- The address a text stands for in a family (`43_text_codec.md` R125). -/
def parseAs : Family → Text → Option (List Byte)
  | .v4, t => parse4 t
  | .v6, t => parse6 t

/-- The number of bytes of an address of a family (`43_text_codec.md` R125). -/
def Family.addressLen : Family → Byte
  | .v4 => 4
  | .v6 => 16

/-- PARSE: text length, then family, then grammar (`43_text_codec.md` R125, `60_exceptions.md` R155). -/
def execParse (family tlen : Byte) (s : State) : Outcome :=
  let s := s.begin
  if textMax < tlen.toNat then .next (s.raise .invalidAddress)
  else
    match familyOf family with
    | none => .next (s.raise .unsupportedFamily)
    | some f =>
      match parseAs f (s.ports.text tlen) with
      | none => .next (s.raise .invalidAddress)
      | some bs => .next (s.respond (.bytes f.addressLen (bytesOut bs)))

end Sys2Proof.Machine
end

