-- ==== Sys2Proof/Machine/Dispatch.lean ====
section
/-! DEFINITION. What each command does: one arm per constructor, one call of its meaning. -/

namespace Sys2Proof.Machine

def exec (i : Instr) (s : State) : Host.Outcome State Fault Refusal :=
  match i with
  | .parse family tlen => Sys2Proof.Machine.execParse family tlen s
  | .format lenA => Sys2Proof.Machine.execFormat lenA s
  | .shl lenA => Sys2Proof.Machine.execShl lenA s
  | .shr lenA => Sys2Proof.Machine.execShr lenA s
  | .and lenA lenB => Sys2Proof.Machine.execAnd lenA lenB s
  | .andi lenA => Sys2Proof.Machine.execAndi lenA s
  | .or lenA lenB => Sys2Proof.Machine.execOr lenA lenB s
  | .ori lenA => Sys2Proof.Machine.execOri lenA s

end Sys2Proof.Machine
end

