-- ==== Sys2Proof/Machine/Step.lean ====
section
/-! DEFINITION. One step: the CORE takes the host's next action; with none it stays idle. -/

namespace Sys2Proof.Machine

/-- One step of the CORE. A command is accepted, executed and answered as one indivisible step (`10_state.md` R10, R16;
`20_memory.md` R37); a word that spells no command is answered `IllegalCommand` before anything else is looked at
(`60_exceptions.md` R155); a command reset away gives no response (`70_reset_and_hazards.md` R171); with nothing to do the
CORE is idle (`60_exceptions.md` R161). DESIGN CHOICE (assumption 17): a command reset away is not looked at, so an AND or OR
that `41_boolean.md` R71 marks REFUSED does not refuse the run when a reset cuts it off. -/
def step (s : State) : Host.Outcome State Fault Refusal :=
  match s.host with
  | [] => .next s
  | .reset :: rest => .next { s.applyReset with host := rest }
  | .issueAborted c :: rest => .next (s.accept c rest).applyReset
  | .issue c :: rest =>
    match decode c.cmd with
    | .ok i => exec i (s.accept c rest)
    | .error _ => .next (s.accept c rest).illegal

/-- `s` with one more command in front of what the host is about to do: the command word given as `nbits` bits of `w`, the
data ports as they last were. The next step accepts and runs it. -/
def State.withFetchWord (s : State) (nbits w : Nat) : State := s.presentWord (tableWord nbits w)

end Sys2Proof.Machine
end

