-- ==== Sys2Proof/Machine/Grammar.lean ====
section
/-! DEFINITION. The grammar of the two address texts as relations, production by production (`43_text_codec.md` R110, R126,
R127). The machine reads texts by the procedures of Machine/Text.lean; claims are stated against these relations. -/

namespace Sys2Proof.Machine

/-- `c` is the decimal digit character of value `v` (`43_text_codec.md` R110). -/
def IsDigit (c : Byte) (v : Nat) : Prop := v < 10 ∧ c.toNat = 0x30 + v

/-- `c` is a hexadecimal digit character of value `v`, in either case (`43_text_codec.md` R110). -/
def IsHexDigit (c : Byte) (v : Nat) : Prop :=
  IsDigit c v ∨ (10 ≤ v ∧ v < 16 ∧ (c.toNat = 0x61 + (v - 10) ∨ c.toNat = 0x41 + (v - 10)))

/-- `field` and its value (`43_text_codec.md` R126). -/
inductive V4Field : Text → Nat → Prop
  | zero (c : Byte) : IsDigit c 0 → V4Field [c] 0
  | one (c : Byte) (a : Nat) : IsDigit c a → a ≠ 0 → V4Field [c] a
  | two (c d : Byte) (a b : Nat) : IsDigit c a → a ≠ 0 → IsDigit d b → V4Field [c, d] (10 * a + b)
  | three (c d e : Byte) (a b f : Nat) : IsDigit c a → a ≠ 0 → IsDigit d b → IsDigit e f →
      100 * a + 10 * b + f ≤ 255 → V4Field [c, d, e] (100 * a + 10 * b + f)

/-- `v4text` and its four bytes (`43_text_codec.md` R126). -/
inductive V4Text : Text → List Byte → Prop
  | fields (t0 t1 t2 t3 : Text) (n0 n1 n2 n3 : Nat) :
      V4Field t0 n0 → V4Field t1 n1 → V4Field t2 n2 → V4Field t3 n3 →
      V4Text (t0 ++ [0x2E] ++ t1 ++ [0x2E] ++ t2 ++ [0x2E] ++ t3)
        [BitVec.ofNat 8 n0, BitVec.ofNat 8 n1, BitVec.ofNat 8 n2, BitVec.ofNat 8 n3]

/-- One to four hexadecimal digits and their value (`43_text_codec.md` R127). -/
inductive HexGroup : Text → Nat → Prop
  | one (c : Byte) (v : Nat) : IsHexDigit c v → HexGroup [c] v
  | more (t : Text) (n : Nat) (c : Byte) (v : Nat) : HexGroup t n → t.length < 4 → IsHexDigit c v →
      HexGroup (t ++ [c]) (16 * n + v)

/-- `glist`: one or more groups between single colons, two bytes each (`43_text_codec.md` R127). -/
inductive GroupList : Text → List Byte → Prop
  | one (t : Text) (v : Nat) : HexGroup t v → GroupList t [BitVec.ofNat 8 (v / 256), BitVec.ofNat 8 (v % 256)]
  | more (t u : Text) (bs : List Byte) (v : Nat) : HexGroup t v → GroupList u bs →
      GroupList (t ++ [0x3A] ++ u) ([BitVec.ofNat 8 (v / 256), BitVec.ofNat 8 (v % 256)] ++ bs)

/-- `tail`: groups, groups and a dotted-decimal text, or a dotted-decimal text (`43_text_codec.md` R127). -/
inductive TailText : Text → List Byte → Prop
  | groups (t : Text) (bs : List Byte) : GroupList t bs → TailText t bs
  | mixed (t u : Text) (bs qs : List Byte) : GroupList t bs → V4Text u qs → TailText (t ++ [0x3A] ++ u) (bs ++ qs)
  | dotted (u : Text) (qs : List Byte) : V4Text u qs → TailText u qs

/-- `v6text` and its sixteen bytes: form 1 without `"::"`, form 2 with one `"::"` that stands for at least one group
(`43_text_codec.md` R127). -/
inductive V6Text : Text → List Byte → Prop
  | full (t : Text) (bs : List Byte) : TailText t bs → bs.length = 16 → V6Text t bs
  | compressed (l r : Text) (ls rs : List Byte) :
      (GroupList l ls ∨ l = [] ∧ ls = []) → (TailText r rs ∨ r = [] ∧ rs = []) → ls.length + rs.length ≤ 14 →
      V6Text (l ++ [0x3A, 0x3A] ++ r) (ls ++ List.replicate (16 - ls.length - rs.length) 0 ++ rs)

end Sys2Proof.Machine
end

