-- ==== Sys2Proof/Safety.lean ====
section
/-! DEFINITION. The terms claims about the CORE are stated in: what a response must look like, what a working value stands
for as a number, which inputs a command uses, and what a run answers. -/

namespace Sys2Proof.Machine

/-- `V128(W)` (`10_state.md` R14). -/
def V128 (w : Words) : Nat :=
  w[0].toNat * 2 ^ 96 + w[1].toNat * 2 ^ 64 + w[2].toNat * 2 ^ 32 + w[3].toNat

/-- A list of bytes read as one big-endian number (`20_memory.md` R44). -/
def bigEndian (bs : List Byte) : Nat := bs.foldl (fun v b => v * 2 ^ 8 + b.toNat) 0

/-- The declared bytes of a buffer (`10_state.md` R12). -/
def declared (x : Buffer) (len : Byte) : List Byte := x.toList.take len.toNat

/-- Byte `j` of a buffer, zero at or beyond the declared length (`41_boolean.md` R74). -/
def byteWithin (x : Buffer) (len : Byte) (j : Fin 16) : Byte := if j.val < len.toNat then x[j.val] else 0

/-- Byte `j`, first first, of a number written as `len` big-endian bytes. -/
def byteOfNumber (len j v : Nat) : Byte := BitVec.ofNat 8 (v / 2 ^ (8 * (len - 1 - j)))

/-- The width `INT_W` in bits (`00_scope.md` R4). -/
def intBits (cfg : Config) : Nat :=
  match cfg.intWidth with
  | .w32 => 32
  | .w64 => 64

/-- `u = n mod 2^INT_W`, the bit pattern of the integer as an unsigned number (`41_boolean.md` R75). -/
def integerPattern (cfg : Config) (n : BitVec 64) : Nat := (intValue cfg n % 2 ^ intBits cfg).toNat

/-- `g[s..s+l-1]` is a zero run: nonempty, all zero, and maximal (`43_text_codec.md` R115). -/
def IsZeroRun (gs : List (BitVec 16)) (s l : Nat) : Prop :=
  1 ≤ l ∧ s + l ≤ gs.length ∧ (∀ i, s ≤ i → i < s + l → gs[i]? = some 0) ∧
    (s = 0 ∨ gs[s - 1]? ≠ some 0) ∧ (s + l = gs.length ∨ gs[s + l]? ≠ some 0)

/-- The compressed run: a zero run of at least two groups, none longer, none as long further left (`43_text_codec.md`
R115). -/
def IsCompressedRun (gs : List (BitVec 16)) (s l : Nat) : Prop :=
  IsZeroRun gs s l ∧ 2 ≤ l ∧ ∀ s' l', IsZeroRun gs s' l' → l' ≤ l ∧ (l' = l → s ≤ s')

/-- The shape of every response: an error carries nothing, bytes and text are never both there, and what is beyond the
stated lengths is zero (`60_exceptions.md` R150, R153). -/
def Response.Canonical (r : Response) : Prop :=
  (r.status ≠ Status.ok.code → r.rlen = 0 ∧ r.rtlen = 0) ∧
    (r.rlen = 0 ∨ r.rtlen = 0) ∧ WholeWords r.rlen ∧ r.rtlen.toNat ≤ 39 ∧
    (∀ j : Fin 16, r.rlen.toNat ≤ j.val → r.r[j.val] = 0) ∧
    (∀ j : Fin 49, r.rtlen.toNat ≤ j.val → r.rt[j.val] = 0)

/-- The invariant of the CORE: whatever response it shows has the shape of `Response.Canonical`. -/
def State.Inv (s : State) : Prop := ∀ r, s.response = some r → r.Canonical

/-- Two presentations agree on the inputs a command uses: the declared bytes of the ports its format reads, the value of
port `N`, and the characters PARSE examines (`30_encoding.md` R51, R57, `10_state.md` R19). -/
def SameUsedInputs (cfg : Config) (p q : Command) : Instr → Prop
  | .parse _ tlen => tlen.toNat ≤ textMax → p.text tlen = q.text tlen
  | .format lenA => declared p.a lenA = declared q.a lenA
  | .shl lenA => declared p.a lenA = declared q.a lenA ∧ intValue cfg p.n = intValue cfg q.n
  | .shr lenA => declared p.a lenA = declared q.a lenA ∧ intValue cfg p.n = intValue cfg q.n
  | .and lenA lenB => declared p.a lenA = declared q.a lenA ∧ declared p.b lenB = declared q.b lenB
  | .andi lenA => declared p.a lenA = declared q.a lenA ∧ intValue cfg p.n = intValue cfg q.n
  | .or lenA lenB => declared p.a lenA = declared q.a lenA ∧ declared p.b lenB = declared q.b lenB
  | .ori lenA => declared p.a lenA = declared q.a lenA ∧ intValue cfg p.n = intValue cfg q.n

/-- The response an outcome shows, if the machine went on and shows one. -/
def answer : Outcome → Option Response
  | .next t => t.response
  | .fault _ => none
  | .refused _ => none

/-- The response of a command presented to a CORE just out of reset, `exec cfg c` of `00_scope.md` R8. -/
def responseTo (cfg : Config) (c : Command) : Option Response :=
  answer (step { State.resetWith cfg with host := [.issue c] })

/-- The responses shown after each of the next `k` steps, the first one first, up to a stop (`70_reset_and_hazards.md`
R176). -/
def responses : Nat → State → List (Option Response)
  | 0, _ => []
  | k + 1, s =>
    match step s with
    | .next t => t.response :: responses k t
    | .fault _ => []
    | .refused _ => []

/-- The command word of each command as the table's formula writes it, `f2 * 2^16 + f1 * 2^8 + op` (`30_encoding.md` R52,
R61). -/
def specWord : Instr → Nat
  | .parse family tlen => tlen.toNat * 2 ^ 16 + family.toNat * 2 ^ 8 + 1
  | .format lenA => lenA.toNat * 2 ^ 8 + 2
  | .shl lenA => lenA.toNat * 2 ^ 8 + 3
  | .shr lenA => lenA.toNat * 2 ^ 8 + 4
  | .and lenA lenB => lenB.toNat * 2 ^ 16 + lenA.toNat * 2 ^ 8 + 5
  | .andi lenA => lenA.toNat * 2 ^ 8 + 6
  | .or lenA lenB => lenB.toNat * 2 ^ 16 + lenA.toNat * 2 ^ 8 + 7
  | .ori lenA => lenA.toNat * 2 ^ 8 + 8

/-- The words that spell no command, condition by condition (`30_encoding.md` R58). -/
def IllegalWord (w : Word) : Prop :=
  let op := w.toNat % 16
  op = 0 ∨ 9 ≤ op ∨ w.toNat / 2 ^ 4 % 16 ≠ 0 ∨ w.toNat / 2 ^ 24 ≠ 0 ∨
    (w.toNat / 2 ^ 16 % 256 ≠ 0 ∧ (op = 2 ∨ op = 3 ∨ op = 4 ∨ op = 6 ∨ op = 8))

/-- The lengths AND and OR accept (`41_boolean.md` R74): both valid, or, under `LITERAL`, one valid and the other 0, 8 or
12. -/
def LengthsAccepted (rule : LenRule) (lenA lenB : Byte) : Prop :=
  (ValidLen lenA ∧ ValidLen lenB) ∨
    (rule = .literal ∧ (ValidLen lenA ∨ ValidLen lenB) ∧ WholeWords lenA ∧ WholeWords lenB)

end Sys2Proof.Machine
end

