-- ==== Sys2Proof/WellFormed.lean ====
section
/-! DEFINITION. Which decoded commands a host may issue. -/

namespace Sys2Proof

/-- A command the host may issue: every one but an AND or OR whose lengths `check_two` marks REFUSED
(`41_boolean.md` R71, `70_reset_and_hazards.md` R174, R177). Every other field value is legal (`30_encoding.md` R53, R55). -/
def Instr.wellFormed (cfg : Config) : Instr → Bool
  | .parse _ _ => true
  | .format _ => true
  | .shl _ => true
  | .shr _ => true
  | .and lenA lenB => Machine.checkTwo cfg.lenRule lenA lenB ≠ .undefinedResult
  | .andi _ => true
  | .or lenA lenB => Machine.checkTwo cfg.lenRule lenA lenB ≠ .undefinedResult
  | .ori _ => true

end Sys2Proof
end

