-- ==== Sys2Proof/Certificates/Slice0/Obligations.lean ====
section
/-! DEFINITION. The statements about the CORE for the provers. Where one gives the whole next state, what `W`, `V` and `C`
hold in it is the model's reading of a value the spec calls dead after the response (assumption 5), and that `host` and
`ports` stay is about fields of the model's own (assumptions 2 and 3). -/

open Sys2Proof Sys2Proof.Machine

/-! ### Reset, the host and the step -/

/-- R23 and R170: reset leaves the CORE idle, the working registers zero, no response valid and the parameters as they
were, whether it comes between two commands or in the middle of one; `State.reset` is such a CORE. That the host's list is
the rest of it afterwards is the model's choice (assumptions 2 and 6), and so is that this holds of an abandoned command
marked REFUSED too (assumption 17). -/
def Obligations.ResetLeavesTheCoreIdle : Prop :=
  (∀ s : State, ∀ rest c, s.host = .reset :: rest ∨ s.host = .issueAborted c :: rest →
    ∃ t, step s = .next t ∧ t.cfg = s.cfg ∧ t.host = rest ∧ t.response = none ∧ t.c = 0 ∧
      ∀ i : Fin 4, t.w[i.val] = 0 ∧ t.v[i.val] = 0) ∧
  (State.reset.host = [] ∧ State.reset.response = none ∧ State.reset.c = 0 ∧
    ∀ i : Fin 4, State.reset.w[i.val] = 0 ∧ State.reset.v[i.val] = 0)

/-- R171: a command reset away gives no response at all, and the step of any command issued next, the same one again
included, is the step of a CORE just out of reset: the same outcome and the same next state. A command that a reset cuts
off is an action of the model's host (assumption 6); that it leaves no trace even where it is an AND or OR marked REFUSED is
the model's choice (assumption 17). -/
def Obligations.AbortedCommandLeavesNoTrace : Prop :=
  ∀ (s : State) (c d : Command) (rest : List HostAction), s.host = .issueAborted c :: .issue d :: rest →
    ∃ t, step s = .next t ∧ t.response = none ∧
      step t = step { State.resetWith s.cfg with host := .issue d :: rest }

/-- R161: an idle CORE with nothing to do stays as it is; a step with an empty host list is the model's own (assumption 2). -/
def Obligations.IdleStepChangesNothing : Prop :=
  ∀ s : State, s.host = [] → step s = .next s

/-- R10: a step with a command to accept whose word decodes runs the decoded command on the inputs sampled then, and the
command is taken off the host's list (assumption 2). -/
def Obligations.StepRunsTheDecodedCommand : Prop :=
  ∀ (s : State) (c : Command) (rest : List HostAction) (i : Instr),
    s.host = .issue c :: rest → decode c.cmd = .ok i → step s = exec i { s with ports := c, host := rest }

/-- R58: an illegal word is answered `IllegalCommand`, every other response field zero and no data input read: the next
state is the same whatever the data ports hold, but for the sampled ports themselves (assumptions 2, 3, 5). -/
def Obligations.IllegalWordIsAnswered : Prop :=
  ∀ (s : State) (c : Command) (rest : List HostAction), s.host = .issue c :: rest → IllegalWord c.cmd →
    step s = .next { s with
      host := rest, ports := c, w := Vector.replicate 4 0, v := Vector.replicate 4 0, c := 0,
      response := some ⟨3, 0, Vector.replicate 16 0, 0, Vector.replicate 49 0⟩ }

/-- R158, R150: a command issued to the CORE is answered by exactly one response in one step, unless it is an AND or OR that
the host may not issue (the host's list: assumption 2). -/
def Obligations.EveryIssuedCommandIsAnswered : Prop :=
  ∀ (s : State) (c : Command) (rest : List HostAction), s.host = .issue c :: rest →
    (∀ i, decode c.cmd = .ok i → i.wellFormed s.cfg) →
    ∃ t r, step s = .next t ∧ t.response = some r ∧ t.host = rest

/-- R71, R158: a step never faults, and refuses only an AND or OR under `LITERAL` with one valid length and one length that
`load` and `store` are not defined for (assumption 7; the host's list: assumption 2), and that only where no reset cuts the
command off (assumption 17). -/
def Obligations.OnlyUndefinedLengthsStopTheCore : Prop :=
  (∀ s f, step s ≠ .fault f) ∧
  ∀ s r, step s = .refused r →
    ∃ c rest lenA lenB, s.host = .issue c :: rest ∧
      (decode c.cmd = .ok (.and lenA lenB) ∨ decode c.cmd = .ok (.or lenA lenB)) ∧
      s.cfg.lenRule = .literal ∧ r = .undefinedLength lenA lenB ∧
      ((ValidLen lenA ∧ ¬ WholeWords lenB) ∨ (¬ WholeWords lenA ∧ ValidLen lenB))

/-- R18: no step changes the parameters; each step takes exactly one action off the host's list (assumption 2). -/
def Obligations.StepKeepsTheParameters : Prop :=
  ∀ s t, step s = .next t → t.cfg = s.cfg ∧ t.host = s.host.tail

/-- R150 and R153 as an invariant: from every state whose response, if any, has the shape of `Response.Canonical`, a step
gives such a state again. -/
def Obligations.StepKeepsResponsesCanonical : Prop :=
  ∀ s t, s.Inv → step s = .next t → t.Inv

/-- The invariant of `StepKeepsResponsesCanonical` holds after reset in every configuration. -/
def Obligations.ResetResponseIsCanonical : Prop :=
  State.reset.Inv ∧ ∀ cfg, (State.resetWith cfg).Inv

/-- R176: a run answers the list of the responses each command would get alone after reset, whatever the CORE held before,
and ends idle; nothing an earlier command did changes a later response (R158). The list of commands is the host's list of
assumption 2. -/
def Obligations.RunAnswersEachCommandAlone : Prop :=
  ∀ (s : State) (cs : List Command), s.host = cs.map .issue →
    (∀ c ∈ cs, ∀ i, decode c.cmd = .ok i → i.wellFormed s.cfg) →
    responses cs.length s = cs.map (responseTo s.cfg) ∧ (∀ r ∈ responses cs.length s, r ≠ none) ∧
    ∃ t, Sys2Proof.core.run cs.length s = .next t ∧ step t = .next t

/-- R57: what a command answers depends on the configuration and on the inputs its format names, and on nothing else: not
on other ports, on bytes at or beyond the declared lengths, on what the CORE held, or on what the host will do next. -/
def Obligations.AnswerDependsOnUsedInputsOnly : Prop :=
  ∀ (i : Instr) (s t : State), s.cfg = t.cfg → SameUsedInputs s.cfg s.ports t.ports i →
    answer (exec i s) = answer (exec i t)

/-! ### Encoding -/

/-- Words written out from the table decode to the commands they stand for. -/
def Obligations.TableWordsDecode : Prop :=
  decode 0x000B0401 = .ok (.parse 4 11) ∧ decode 0x00001002 = .ok (.format 16) ∧
  decode 0x00001003 = .ok (.shl 16) ∧ decode 0x00000404 = .ok (.shr 4) ∧
  decode 0x00040805 = .ok (.and 8 4) ∧ decode 0x00000406 = .ok (.andi 4) ∧
  decode 0x000C0407 = .ok (.or 4 12) ∧ decode 0x00001008 = .ok (.ori 16)

/-- R61: the word of a command is `f2 * 2^16 + f1 * 2^8 + op`, and a word decodes to a command exactly when it is that
word, so that decoding and encoding undo each other on all commands and all legal words. -/
def Obligations.DecodeAndEncodeAgree : Prop :=
  (∀ i, (encode i).toNat = specWord i) ∧ (∀ i, decode (encode i) = .ok i) ∧
  (∀ w i, decode w = .ok i → encode i = w) ∧ ∀ w i, decode w = .ok i ↔ w.toNat = specWord i

/-- R58: the decoder refuses exactly the words that one of the rule's conditions makes illegal, and those are the words
that match no row of the opcode table. -/
def Obligations.DecoderRefusesExactlyTheIllegalWords : Prop :=
  ∀ w, ((∃ e, decode w = .error e) ↔ IllegalWord w) ∧ (IllegalWord w ↔ ∀ row ∈ opcodeTable, ¬ row.Spells w)

/-- R52: a word spells a command of at most one row, and decodes to a command exactly of that row. -/
def Obligations.OpcodeRowsAreDisjoint : Prop :=
  (∀ w, ∀ row ∈ opcodeTable, ∀ row' ∈ opcodeTable, row.Spells w → row'.Spells w → row = row') ∧
  (∀ w i, decode w = .ok i → i.row ∈ opcodeTable ∧ i.row.Spells w) ∧
  ∀ w, ∀ row ∈ opcodeTable, row.Spells w → ∃ i, decode w = .ok i ∧ i.row = row

/-- Of all words exactly `3 * 2^16 + 5 * 2^8` are legal. -/
def Obligations.LegalWordCount : Prop :=
  Set.ncard {w : Word | ∃ i, decode w = .ok i} = 197888

/-! ### The byte-order converter -/

/-- R30: `be32` and `byte_k` are the big-endian conversions, and undo each other. -/
def Obligations.ByteOrderConversionsAreInverse : Prop :=
  (∀ b0 b1 b2 b3 : Byte,
    (be32 b0 b1 b2 b3).toNat = b0.toNat * 2 ^ 24 + b1.toNat * 2 ^ 16 + b2.toNat * 2 ^ 8 + b3.toNat) ∧
  (∀ (k : Nat) (w : Word), k < 4 → (byteOf k w).toNat = w.toNat / 2 ^ (24 - 8 * k) % 2 ^ 8) ∧
  (∀ w : Word, be32 (byteOf 0 w) (byteOf 1 w) (byteOf 2 w) (byteOf 3 w) = w) ∧
  ∀ b0 b1 b2 b3 : Byte, byteOf 0 (be32 b0 b1 b2 b3) = b0 ∧ byteOf 1 (be32 b0 b1 b2 b3) = b1 ∧
    byteOf 2 (be32 b0 b1 b2 b3) = b2 ∧ byteOf 3 (be32 b0 b1 b2 b3) = b3

/-- R31 and R32 together: what `load` reads of a whole number of words, `store` gives back, zero beyond the length. -/
def Obligations.StoreGivesBackWhatLoadRead : Prop :=
  ∀ (x : Buffer) (len : Byte) (j : Fin 16), WholeWords len →
    (storeBytes (load x len) len)[j.val] = byteWithin x len j

/-- R44: the bytes, groups and words of an address are one big-endian number; a 4-byte address is word 0. -/
def Obligations.OneAddressAtThreeWidths : Prop :=
  ∀ x : Buffer,
    (groups x).length = 8 ∧
    (∀ i : Fin 8, ((groups x).getD i.val 0).toNat = x[2 * i.val].toNat * 2 ^ 8 + x[2 * i.val + 1].toNat) ∧
    (∀ i : Fin 4, ((load x 16)[i.val]).toNat =
      ((groups x).getD (2 * i.val) 0).toNat * 2 ^ 16 + ((groups x).getD (2 * i.val + 1) 0).toNat) ∧
    V128 (load x 16) = bigEndian x.toList ∧ ((load x 4)[0]).toNat = bigEndian (x.toList.take 4)

/-! ### AND, OR, ANDI, ORI -/

/-- R72, R74: AND with accepted lengths answers, byte by byte, the AND of the two operands, a byte at or beyond the second
length counting as zero; `W`, `V` and `C` are left as the command computes them and nothing else changes. -/
def Obligations.AndAnswersWhereAccepted : Prop :=
  ∀ (s : State) (lenA lenB : Byte), LengthsAccepted s.cfg.lenRule lenA lenB →
    ∃ r : Buffer,
      (∀ j : Fin 16, r[j.val] = byteWithin s.ports.a lenA j &&& byteWithin s.ports.b lenB j) ∧
      exec (.and lenA lenB) s = .next { s with
        w := Vector.zipWith (· &&& ·) (load s.ports.a lenA) (load s.ports.b lenB), v := load s.ports.b lenB, c := 0,
        response := some ⟨0, lenA, r, 0, Vector.replicate 49 0⟩ }

/-- R73, R74: OR with accepted lengths answers, byte by byte within the first length, the OR of the two operands, a byte at
or beyond the second length counting as zero; `W`, `V` and `C` are left as the command computes them and nothing else
changes. -/
def Obligations.OrAnswersWhereAccepted : Prop :=
  ∀ (s : State) (lenA lenB : Byte), LengthsAccepted s.cfg.lenRule lenA lenB →
    ∃ r : Buffer,
      (∀ j : Fin 16, r[j.val] =
        if j.val < lenA.toNat then s.ports.a[j.val] ||| byteWithin s.ports.b lenB j else 0) ∧
      exec (.or lenA lenB) s = .next { s with
        w := Vector.zipWith (· ||| ·) (load s.ports.a lenA) (load s.ports.b lenB), v := load s.ports.b lenB, c := 0,
        response := some ⟨0, lenA, r, 0, Vector.replicate 49 0⟩ }

/-- R71: the test of AND and OR, line by line, for both values of `LEN_RULE`: what it rejects with `InvalidAddress`, what it
refuses, and that everything else is answered `OK`. -/
def Obligations.LengthTestOfAndOr : Prop :=
  ∀ (s : State) (lenA lenB : Byte) (i : Instr), i = .and lenA lenB ∨ i = .or lenA lenB →
    if (s.cfg.lenRule = .literal ∧ ¬ (ValidLen lenA ∨ ValidLen lenB)) ∨
        (s.cfg.lenRule = .strict ∧ ¬ (ValidLen lenA ∧ ValidLen lenB)) then
      ∃ t r, exec i s = .next t ∧ t.response = some r ∧ r.status = 1
    else if ¬ WholeWords lenA ∨ ¬ WholeWords lenB then exec i s = .refused (.undefinedLength lenA lenB)
    else ∃ t r, exec i s = .next t ∧ t.response = some r ∧ r.status = 0

/-- R75, R76: ANDI with a valid length and an integer in range answers the AND of the address with the integer's bit pattern
lined up with the last bytes and zero before it, so that on 16 bytes the first eight are cleared, and with `INT_W = 32` the
first twelve. -/
def Obligations.AndiAnswersWhereInRange : Prop :=
  ∀ (s : State) (lenA : Byte), ValidLen lenA → (lenA = 4 → intValue s.cfg s.ports.n ≤ 0xFFFFFFFF) →
    ∃ (r : Buffer) (v : Words),
      (∀ j : Fin 16, r[j.val] =
        if j.val < lenA.toNat then
          s.ports.a[j.val] &&& byteOfNumber lenA.toNat j.val (integerPattern s.cfg s.ports.n)
        else 0) ∧
      V128 v = (if lenA = 4 then integerPattern s.cfg s.ports.n % 2 ^ 32 * 2 ^ 96 else integerPattern s.cfg s.ports.n) ∧
      exec (.andi lenA) s = .next { s with
        w := Vector.zipWith (· &&& ·) (load s.ports.a lenA) v, v := v, c := 0,
        response := some ⟨0, lenA, r, 0, Vector.replicate 49 0⟩ }

/-- R75, R77: ORI with a valid length and an integer in range answers the OR of the address with the integer's bit pattern
lined up with the last bytes and zero before it, so that on 16 bytes the first eight are kept, and with `INT_W = 32` the
first twelve. -/
def Obligations.OriAnswersWhereInRange : Prop :=
  ∀ (s : State) (lenA : Byte), ValidLen lenA → (lenA = 4 → intValue s.cfg s.ports.n ≤ 0xFFFFFFFF) →
    ∃ (r : Buffer) (v : Words),
      (∀ j : Fin 16, r[j.val] =
        if j.val < lenA.toNat then
          s.ports.a[j.val] ||| byteOfNumber lenA.toNat j.val (integerPattern s.cfg s.ports.n)
        else 0) ∧
      V128 v = (if lenA = 4 then integerPattern s.cfg s.ports.n % 2 ^ 32 * 2 ^ 96 else integerPattern s.cfg s.ports.n) ∧
      exec (.ori lenA) s = .next { s with
        w := Vector.zipWith (· ||| ·) (load s.ports.a lenA) v, v := v, c := 0,
        response := some ⟨0, lenA, r, 0, Vector.replicate 49 0⟩ }

/-- R79: with `INT_W = 32` the integer reaches only the last word of a 16-byte address: ANDI clears bytes 0..11, ORI keeps
them, and lines 63..32 of the model's port, which such a block does not have (assumption 4), change nothing. -/
def Obligations.NarrowIntegerReachesTheLastWordOnly : Prop :=
  ∀ (s : State) (hi : Word) (j : Fin 12), s.cfg.intWidth = .w32 →
    (∀ r, answer (exec (.andi 16) s) = some r → r.r[j.val] = 0) ∧
    (∀ r, answer (exec (.ori 16) s) = some r → r.r[j.val] = s.ports.a[j.val]) ∧
    answer (exec (.andi 16) { s with ports := { s.ports with n := hi ++ s.ports.n.setWidth 32 } }) =
      answer (exec (.andi 16) s) ∧
    answer (exec (.ori 16) { s with ports := { s.ports with n := hi ++ s.ports.n.setWidth 32 } }) =
      answer (exec (.ori 16) s)

/-- R78: AND and OR of an address with itself give it back; ANDI with 0 gives zeros, ORI with 0 gives the address back. -/
def Obligations.BooleanLaws : Prop :=
  ∀ (s : State) (lenA : Byte), ValidLen lenA →
    (s.ports.b = s.ports.a →
      (∃ r, answer (exec (.and lenA lenA) s) = some r ∧ r.rlen = lenA ∧ declared r.r lenA = declared s.ports.a lenA) ∧
      ∃ r, answer (exec (.or lenA lenA) s) = some r ∧ r.rlen = lenA ∧ declared r.r lenA = declared s.ports.a lenA) ∧
    (s.ports.n = 0 →
      (∃ r, answer (exec (.andi lenA) s) = some r ∧ r.rlen = lenA ∧ r.r = Vector.replicate 16 0) ∧
      ∃ r, answer (exec (.ori lenA) s) = some r ∧ r.rlen = lenA ∧ declared r.r lenA = declared s.ports.a lenA)

/-! ### SHL and SHR -/

/-- R99: with a valid length and a count that is not negative, SHR and SHL divide and multiply the 128-bit number of the
declared bytes by `2^count`, give zero from 128 on, and answer the first declared bytes of the result; `W` holds the result,
`C` the residual count, and nothing else changes. -/
def Obligations.ShiftsAreLogicalOn128Bits : Prop :=
  ∀ (s : State) (lenA : Byte) (count : Nat), ValidLen lenA → intValue s.cfg s.ports.n = count →
    (∃ (r : Buffer) (w : Words),
      V128 w = (if count < 128 then V128 (load s.ports.a lenA) / 2 ^ count else 0) ∧
      (∀ j : Fin 16, r[j.val] = if j.val < lenA.toNat then byteOfNumber 16 j.val (V128 w) else 0) ∧
      exec (.shr lenA) s = .next { s with
        w := w, v := Vector.replicate 4 0, c := if count < 128 then BitVec.ofNat 5 (count % 32) else 0,
        response := some ⟨0, lenA, r, 0, Vector.replicate 49 0⟩ }) ∧
    ∃ (r : Buffer) (w : Words),
      V128 w = (if count < 128 then V128 (load s.ports.a lenA) * 2 ^ count % 2 ^ 128 else 0) ∧
      (∀ j : Fin 16, r[j.val] = if j.val < lenA.toNat then byteOfNumber 16 j.val (V128 w) else 0) ∧
      exec (.shl lenA) s = .next { s with
        w := w, v := Vector.replicate 4 0, c := if count < 128 then BitVec.ofNat 5 (count % 32) else 0,
        response := some ⟨0, lenA, r, 0, Vector.replicate 49 0⟩ }

/-- R100: on 4 bytes SHR and SHL are the logical shifts of the address as a 32-bit number, zero from a count of 32 on. -/
def Obligations.FourByteShifts : Prop :=
  ∀ (s : State) (count : Nat) (j : Fin 4), intValue s.cfg s.ports.n = count →
    let a := be32 s.ports.a[0] s.ports.a[1] s.ports.a[2] s.ports.a[3]
    (∃ r, answer (exec (.shr 4) s) = some r ∧ r.status = 0 ∧ r.rlen = 4 ∧
      r.r[j.val] = byteOf j.val (if count ≤ 31 then a >>> count else 0)) ∧
    ∃ r, answer (exec (.shl 4) s) = some r ∧ r.status = 0 ∧ r.rlen = 4 ∧
      r.r[j.val] = byteOf j.val (if count ≤ 31 then a <<< count else 0)

/-- R92, R97: the word-granularity steps, spelled out for each `q`. -/
def Obligations.WordStepsMoveWholeWords : Prop :=
  ∀ a b c d : Word,
    wordRight #v[a, b, c, d] 0 = #v[a, b, c, d] ∧ wordRight #v[a, b, c, d] 1 = #v[0, a, b, c] ∧
    wordRight #v[a, b, c, d] 2 = #v[0, 0, a, b] ∧ wordRight #v[a, b, c, d] 3 = #v[0, 0, 0, a] ∧
    wordLeft #v[a, b, c, d] 0 = #v[a, b, c, d] ∧ wordLeft #v[a, b, c, d] 1 = #v[b, c, d, 0] ∧
    wordLeft #v[a, b, c, d] 2 = #v[c, d, 0, 0] ∧ wordLeft #v[a, b, c, d] 3 = #v[d, 0, 0, 0]

/-- R93, R94, R98: the bit-granularity steps shift the whole 128-bit number by the residual count, and change nothing when
it is 0. -/
def Obligations.BitStepsShiftAcrossWords : Prop :=
  ∀ (w : Words) (c : BitVec 5),
    bitRight w 0 = w ∧ bitLeft w 0 = w ∧
    V128 (bitRight w c) = V128 w / 2 ^ c.toNat ∧ V128 (bitLeft w c) = V128 w * 2 ^ c.toNat % 2 ^ 128

/-- R101: SHR `j` after SHR `k` answers what SHR `j + k` answers, and the same of SHL, the first result being presented on
port `A` for the second. -/
def Obligations.ShiftsCompose : Prop :=
  ∀ (s t u : State) (lenA : Byte) (j k : Nat) (r : Response) (i : Instr),
    i = .shr lenA ∨ i = .shl lenA → t.cfg = s.cfg → u.cfg = s.cfg →
    intValue s.cfg s.ports.n = k → intValue s.cfg t.ports.n = j → intValue s.cfg u.ports.n = (j + k : Nat) →
    answer (exec i s) = some r → t.ports.a = r.r → u.ports.a = s.ports.a →
    answer (exec i t) = answer (exec i u)

/-- R101: SHL `k` of SHR `k` of an address clears its lowest `k` bits, and SHR `k` of SHL `k` its highest, the bits being
those of the address as a number of its own width. -/
def Obligations.ShiftThereAndBackLosesTheEnds : Prop :=
  ∀ (s t : State) (lenA : Byte) (k : Nat) (r r' : Response), ValidLen lenA → t.cfg = s.cfg →
    intValue s.cfg s.ports.n = k → intValue s.cfg t.ports.n = k → t.ports.a = r.r →
    let width := 8 * lenA.toNat
    let number := bigEndian (declared s.ports.a lenA)
    (answer (exec (.shr lenA) s) = some r → answer (exec (.shl lenA) t) = some r' →
      bigEndian (declared r'.r lenA) = (if k < width then number / 2 ^ k * 2 ^ k else 0)) ∧
    (answer (exec (.shl lenA) s) = some r → answer (exec (.shr lenA) t) = some r' →
      bigEndian (declared r'.r lenA) = (if k < width then number % 2 ^ (width - k) else 0))

/-! ### FORMAT -/

/-- R112: `dec(b)` is the decimal numeral of `b`: digits whose value is `b`, the first not zero unless it is the only one. -/
def Obligations.DecIsTheDecimalNumeral : Prop :=
  ∀ b : Byte, ∃ ds : List Nat,
    List.Forall₂ IsDigit (dec b) ds ∧ ds.foldl (fun v d => 10 * v + d) 0 = b.toNat ∧
    (ds.length = if b.toNat < 10 then 1 else if b.toNat < 100 then 2 else 3) ∧ (ds.head? = some 0 → ds = [0])

/-- R116: `hex(g)` is the hexadecimal numeral of `g` in lower case: one to four digits whose value is `g`, the first not
zero unless it is the only one. -/
def Obligations.HexIsTheLowerCaseNumeral : Prop :=
  (∀ g : BitVec 16, ∃ ds : List Nat,
    List.Forall₂ IsHexDigit (hex g) ds ∧ ds.foldl (fun v d => 16 * v + d) 0 = g.toNat ∧
    1 ≤ ds.length ∧ ds.length ≤ 4 ∧ (ds.head? = some 0 → ds = [0]) ∧
    ∀ c ∈ hex g, ¬ (0x41 ≤ c.toNat ∧ c.toNat ≤ 0x46)) ∧
  hex 0 = [0x30] ∧ hex 0x0db8 = [0x64, 0x62, 0x38]

/-- R115: the compressed run is the zero run of greatest length among those of at least two groups, the leftmost of several,
and there is none exactly when no zero run has two groups. -/
def Obligations.CompressedRunIsTheLongestLeftmost : Prop :=
  ∀ gs : List (BitVec 16),
    (∀ s l, compressedRun gs = some (s, l) ↔ IsCompressedRun gs s l) ∧
    (compressedRun gs = none ↔ ∀ s l, IsZeroRun gs s l → l < 2)

/-- R111, R113: FORMAT of 4 bytes answers the four decimal numerals with dots between them; `W`, `V` and `C` are zero and
nothing else changes. -/
def Obligations.FormatAnswersFourBytes : Prop :=
  ∀ s : State,
    let sep : Text := [0x2E]
    let text := dec s.ports.a[0] ++ sep ++ dec s.ports.a[1] ++ sep ++ dec s.ports.a[2] ++ sep ++ dec s.ports.a[3]
    ∃ rt : TextOut,
      (∀ j : Fin 49, rt[j.val] = text.getD j.val 0) ∧ 7 ≤ text.length ∧ text.length ≤ 15 ∧
      exec (.format 4) s = .next { s with
        w := Vector.replicate 4 0, v := Vector.replicate 4 0, c := 0,
        response := some ⟨0, 0, Vector.replicate 16 0, BitVec.ofNat 8 text.length, rt⟩ }

/-- R111, R117, R118: FORMAT of 16 bytes answers the colon-hex form with the compressed run, where there is one, written
`"::"`, and no other form; `W`, `V` and `C` are zero and nothing else changes. -/
def Obligations.FormatAnswersSixteenBytes : Prop :=
  ∀ s : State,
    let gs := groups s.ports.a
    ∃ (text : Text) (rt : TextOut),
      ((∀ n l, ¬ IsCompressedRun gs n l) → text = joinWith 0x3A (gs.map hex)) ∧
      (∀ n l, IsCompressedRun gs n l →
        text = joinWith 0x3A ((gs.take n).map hex) ++ [0x3A, 0x3A] ++ joinWith 0x3A ((gs.drop (n + l)).map hex)) ∧
      (∀ j : Fin 49, rt[j.val] = text.getD j.val 0) ∧ 2 ≤ text.length ∧ text.length ≤ 39 ∧
      exec (.format 16) s = .next { s with
        w := Vector.replicate 4 0, v := Vector.replicate 4 0, c := 0,
        response := some ⟨0, 0, Vector.replicate 16 0, BitVec.ofNat 8 text.length, rt⟩ }

/-- R119: the text of 4 bytes has 7 to 15 characters, that of 16 bytes 2 to 39. -/
def Obligations.FormatLengthBounds : Prop :=
  ∀ (s : State) (r : Response),
    (answer (exec (.format 4) s) = some r → 7 ≤ r.rtlen.toNat ∧ r.rtlen.toNat ≤ 15) ∧
    (answer (exec (.format 16) s) = some r → 2 ≤ r.rtlen.toNat ∧ r.rtlen.toNat ≤ 39)

/-- R120: FORMAT with a valid length always succeeds, and two buffers format to the same text exactly when they are the same
buffer. -/
def Obligations.FormatIsInjective : Prop :=
  (∀ (s : State) (lenA : Byte), ValidLen lenA → ∃ r, answer (exec (.format lenA) s) = some r ∧ r.status = 0) ∧
  ∀ (s t : State) (lenA lenB : Byte) (r : Response), ValidLen lenA → ValidLen lenB →
    answer (exec (.format lenA) s) = some r →
    (answer (exec (.format lenB) t) = some r ↔ lenA = lenB ∧ declared s.ports.a lenA = declared t.ports.a lenB)

/-! ### PARSE -/

/-- R126: `parse4` reads exactly the texts of the IPv4 grammar, and gives their four field values as bytes. -/
def Obligations.ParseFourReadsTheGrammar : Prop :=
  ∀ (t : Text) (bs : List Byte), parse4 t = some bs ↔ V4Text t bs

/-- R127 and R130: the procedure reads exactly the texts of the IPv6 grammar, and gives their sixteen bytes. -/
def Obligations.ParseSixReadsTheGrammar : Prop :=
  ∀ (t : Text) (bs : List Byte), parse6 t = some bs ↔ V6Text t bs

/-- R125: PARSE of a text of at most 49 characters that is an address of the stated family answers its bytes; `W`, `V` and
`C` are zero and nothing else changes. -/
def Obligations.ParseAnswersAddressTexts : Prop :=
  ∀ (s : State) (family tlen : Byte) (bs : List Byte), tlen.toNat ≤ 49 →
    (family = 4 ∧ V4Text (s.ports.t.toList.take tlen.toNat) bs) ∨
      (family = 6 ∧ V6Text (s.ports.t.toList.take tlen.toNat) bs) →
    ∃ r : Buffer,
      (∀ j : Fin 16, r[j.val] = bs.getD j.val 0) ∧ bs.length = (if family = 4 then 4 else 16) ∧
      exec (.parse family tlen) s = .next { s with
        w := Vector.replicate 4 0, v := Vector.replicate 4 0, c := 0,
        response := some ⟨0, if family = 4 then 4 else 16, r, 0, Vector.replicate 49 0⟩ }

/-- R125, R155: the failures of PARSE in the order of its tests: the text length, then the family, then the grammar. -/
def Obligations.ParseTestsInOrder : Prop :=
  ∀ (s : State) (family tlen : Byte),
    let failed : BitVec 2 → State := fun code => { s with
      w := Vector.replicate 4 0, v := Vector.replicate 4 0, c := 0,
      response := some ⟨code, 0, Vector.replicate 16 0, 0, Vector.replicate 49 0⟩ }
    (49 < tlen.toNat → exec (.parse family tlen) s = .next (failed 1)) ∧
    (tlen.toNat ≤ 49 → family ≠ 4 → family ≠ 6 → exec (.parse family tlen) s = .next (failed 2)) ∧
    (tlen.toNat ≤ 49 → family = 4 → (∀ bs, ¬ V4Text (s.ports.t.toList.take tlen.toNat) bs) →
      exec (.parse family tlen) s = .next (failed 1)) ∧
    (tlen.toNat ≤ 49 → family = 6 → (∀ bs, ¬ V6Text (s.ports.t.toList.take tlen.toNat) bs) →
      exec (.parse family tlen) s = .next (failed 1))

/-- R129: the text FORMAT answers for an address, presented to PARSE with the address's family, gives the address back. The
converse does not hold: `"FFFF::0:1"` is read as an address whose text is `"ffff::1"`. -/
def Obligations.ParseUndoesFormat : Prop :=
  (∀ (s t : State) (lenA family : Byte) (r : Response),
    (lenA = 4 ∧ family = 4) ∨ (lenA = 16 ∧ family = 6) →
    answer (exec (.format lenA) s) = some r →
    t.ports.t.toList.take r.rtlen.toNat = r.rt.toList.take r.rtlen.toNat →
    ∃ q, answer (exec (.parse family r.rtlen) t) = some q ∧ q.status = 0 ∧ q.rlen = lenA ∧
      declared q.r lenA = declared s.ports.a lenA) ∧
  ∃ x : Buffer,
    parse6 [0x46, 0x46, 0x46, 0x46, 0x3A, 0x3A, 0x30, 0x3A, 0x31] = some x.toList ∧
      format6 x = [0x66, 0x66, 0x66, 0x66, 0x3A, 0x3A, 0x31]

/-! ### Errors -/

/-- R152: `UnsupportedFamily` is answered by PARSE alone, exactly when the family is neither 4 nor 6 and the text has at
most 49 characters. -/
def Obligations.UnsupportedFamilyHasOneCause : Prop :=
  ∀ (i : Instr) (s : State) (r : Response), answer (exec i s) = some r →
    (r.status = 2 ↔ ∃ family tlen, i = .parse family tlen ∧ family ≠ 4 ∧ family ≠ 6 ∧ tlen.toNat ≤ 49)

/-- R151: `InvalidAddress` is answered exactly in the cases of the rule's table. -/
def Obligations.InvalidAddressCauses : Prop :=
  ∀ (i : Instr) (s : State) (r : Response), answer (exec i s) = some r →
    (r.status = 1 ↔
      match i with
      | .format lenA => ¬ ValidLen lenA
      | .shl lenA => ¬ ValidLen lenA ∨ intValue s.cfg s.ports.n < 0
      | .shr lenA => ¬ ValidLen lenA ∨ intValue s.cfg s.ports.n < 0
      | .andi lenA => ¬ ValidLen lenA ∨ lenA = 4 ∧ intValue s.cfg s.ports.n > 0xFFFFFFFF
      | .ori lenA => ¬ ValidLen lenA ∨ lenA = 4 ∧ intValue s.cfg s.ports.n > 0xFFFFFFFF
      | .and lenA lenB =>
        (s.cfg.lenRule = .literal ∧ ¬ ValidLen lenA ∧ ¬ ValidLen lenB) ∨
          (s.cfg.lenRule = .strict ∧ (¬ ValidLen lenA ∨ ¬ ValidLen lenB))
      | .or lenA lenB =>
        (s.cfg.lenRule = .literal ∧ ¬ ValidLen lenA ∧ ¬ ValidLen lenB) ∨
          (s.cfg.lenRule = .strict ∧ (¬ ValidLen lenA ∨ ¬ ValidLen lenB))
      | .parse family tlen =>
        49 < tlen.toNat ∨
          (family = 4 ∧ ∀ bs, ¬ V4Text (s.ports.t.toList.take tlen.toNat) bs) ∨
          (family = 6 ∧ ∀ bs, ¬ V6Text (s.ports.t.toList.take tlen.toNat) bs))

/-- R154: `IllegalCommand` is answered exactly to the words that match no row of the opcode table. -/
def Obligations.IllegalCommandHasOneCause : Prop :=
  ∀ (cfg : Config) (c : Command) (r : Response), responseTo cfg c = some r →
    (r.status = 3 ↔ ∀ row ∈ opcodeTable, ¬ row.Spells c.cmd)

/-- R153: a command whose precondition fails answers `InvalidAddress` and every other response field zero, and changes
nothing a command does not change: every command but PARSE, each with its test. -/
def Obligations.FailedPreconditionsAnswerInvalidAddress : Prop :=
  ∀ (s : State) (lenA lenB : Byte) (i : Instr),
    (i = .format lenA ∧ ¬ ValidLen lenA) ∨
    ((i = .shl lenA ∨ i = .shr lenA) ∧ (¬ ValidLen lenA ∨ intValue s.cfg s.ports.n < 0)) ∨
    ((i = .andi lenA ∨ i = .ori lenA) ∧ (¬ ValidLen lenA ∨ lenA = 4 ∧ intValue s.cfg s.ports.n > 0xFFFFFFFF)) ∨
    ((i = .and lenA lenB ∨ i = .or lenA lenB) ∧
      ((s.cfg.lenRule = .literal ∧ ¬ ValidLen lenA ∧ ¬ ValidLen lenB) ∨
        (s.cfg.lenRule = .strict ∧ (¬ ValidLen lenA ∨ ¬ ValidLen lenB)))) →
    exec i s = .next { s with
      w := Vector.replicate 4 0, v := Vector.replicate 4 0, c := 0,
      response := some ⟨1, 0, Vector.replicate 16 0, 0, Vector.replicate 49 0⟩ }
end

