-- ==== Sys2Proof/Laws/Decode.lean ====
section
/-! SUPPORT. The fields of a command word as numbers, and what each field of a written word reads back as. -/

namespace Sys2Proof

theorem opField_toNat (w : Word) : (opField w).toNat = w.toNat % 16 := by simp [opField]

theorem rsv0Field_toNat (w : Word) : (rsv0Field w).toNat = w.toNat / 2^4 % 16 := by simp [rsv0Field, Nat.shiftRight_eq_div_pow]

theorem f1Field_toNat (w : Word) : (f1Field w).toNat = w.toNat / 2^8 % 256 := by simp [f1Field, Nat.shiftRight_eq_div_pow]

theorem f2Field_toNat (w : Word) : (f2Field w).toNat = w.toNat / 2^16 % 256 := by simp [f2Field, Nat.shiftRight_eq_div_pow]

theorem rsv1Field_toNat (w : Word) : (rsv1Field w).toNat = w.toNat / 2^24 := by
  have := w.isLt
  simp [rsv1Field, Nat.shiftRight_eq_div_pow]; omega

/-- The command word as the formula of `30_encoding.md` R61. -/
theorem commandWord_toNat (f2 f1 : Byte) (op : BitVec 4) :
    (commandWord f2 f1 op).toNat = f2.toNat * 2 ^ 16 + f1.toNat * 2 ^ 8 + op.toNat := by
  have h0 := f2.isLt; have h1 := f1.isLt; have h2 := op.isLt
  simp only [commandWord, BitVec.toNat_append]
  have h3 : (0 : BitVec 4).toNat < 2^4 := by decide
  rw [← Nat.shiftLeft_add_eq_or_of_lt h0, ← Nat.shiftLeft_add_eq_or_of_lt h1, ← Nat.shiftLeft_add_eq_or_of_lt h3, ← Nat.shiftLeft_add_eq_or_of_lt h2]
  simp [Nat.shiftLeft_eq]
  omega

section

variable (f2 f1 : Byte) (op : BitVec 4)

theorem rsv1Field_commandWord : rsv1Field (commandWord f2 f1 op) = 0 := by
  have := f2.isLt; have := f1.isLt; have := op.isLt
  rw [← BitVec.toNat_inj, rsv1Field_toNat, commandWord_toNat]; simp; omega

theorem rsv0Field_commandWord : rsv0Field (commandWord f2 f1 op) = 0 := by
  have := f2.isLt; have := f1.isLt; have := op.isLt
  rw [← BitVec.toNat_inj, rsv0Field_toNat, commandWord_toNat]; simp; omega

theorem f1Field_commandWord : f1Field (commandWord f2 f1 op) = f1 := by
  have := f2.isLt; have := f1.isLt; have := op.isLt
  rw [← BitVec.toNat_inj, f1Field_toNat, commandWord_toNat]; omega

theorem f2Field_commandWord : f2Field (commandWord f2 f1 op) = f2 := by
  have := f2.isLt; have := f1.isLt; have := op.isLt
  rw [← BitVec.toNat_inj, f2Field_toNat, commandWord_toNat]; omega

theorem opField_commandWord : opField (commandWord f2 f1 op) = op := by
  have := f2.isLt; have := f1.isLt; have := op.isLt
  rw [← BitVec.toNat_inj, opField_toNat, commandWord_toNat]; omega

end

/-- What a mask that leaves two fields open keeps of a word. -/
theorem mask_two_fields (n : Nat) (h : n < 2^32) : n &&& 0xFF0000FF = (n / 2^24) * 2^24 + n % 2^8 := by
  have : n &&& 0xFF0000FF = (n >>> 24) <<< 24 ||| (n &&& 0xFF) := by
    apply Nat.eq_of_testBit_eq; intro i
    simp only [Nat.testBit_and, Nat.testBit_or, Nat.testBit_shiftLeft, Nat.testBit_shiftRight]
    by_cases hi : i < 32
    · interval_cases i <;> simp [Nat.testBit, Nat.shiftRight_eq_div_pow]
    · have : n.testBit i = false := Nat.testBit_lt_two_pow (lt_of_lt_of_le h (Nat.pow_le_pow_right (by norm_num) (by omega)))
      simp [this]; intro; rw [Nat.add_sub_cancel' (by omega)]; exact this
  rw [this, show (0xFF:Nat) = 2^8-1 from rfl, Nat.and_two_pow_sub_one_eq_mod, ← Nat.shiftLeft_add_eq_or_of_lt (lt_of_lt_of_le (Nat.mod_lt _ (by norm_num)) (by norm_num)), Nat.shiftLeft_eq, Nat.shiftRight_eq_div_pow]

/-- What a mask that leaves one field open keeps of a word. -/
theorem mask_one_field (n : Nat) (h : n < 2^32) : n &&& 0xFFFF00FF = (n / 2^16) * 2^16 + n % 2^8 := by
  have : n &&& 0xFFFF00FF = (n >>> 16) <<< 16 ||| (n &&& 0xFF) := by
    apply Nat.eq_of_testBit_eq; intro i
    simp only [Nat.testBit_and, Nat.testBit_or, Nat.testBit_shiftLeft, Nat.testBit_shiftRight]
    by_cases hi : i < 32
    · interval_cases i <;> simp [Nat.testBit, Nat.shiftRight_eq_div_pow]
    · have : n.testBit i = false := Nat.testBit_lt_two_pow (lt_of_lt_of_le h (Nat.pow_le_pow_right (by norm_num) (by omega)))
      simp [this]; intro; rw [Nat.add_sub_cancel' (by omega)]; exact this
  rw [this, show (0xFF:Nat) = 2^8-1 from rfl, Nat.and_two_pow_sub_one_eq_mod, ← Nat.shiftLeft_add_eq_or_of_lt (lt_of_lt_of_le (Nat.mod_lt _ (by norm_num)) (by norm_num)), Nat.shiftLeft_eq, Nat.shiftRight_eq_div_pow]

/-- A word of a row with two fields, as a number. -/
theorem spells_two_fields (r : OpcodeRow) (w : Word) (hm : r.mask = 0xFF0000FF) : r.Spells w ↔ (w.toNat / 2^24) * 2^24 + w.toNat % 2^8 = r.bits.toNat := by
  unfold OpcodeRow.Spells
  rw [hm, ← BitVec.toNat_inj, BitVec.toNat_and, ← mask_two_fields _ w.isLt]; rfl

/-- A word of a row with one field, as a number. -/
theorem spells_one_field (r : OpcodeRow) (w : Word) (hm : r.mask = 0xFFFF00FF) : r.Spells w ↔ (w.toNat / 2^16) * 2^16 + w.toNat % 2^8 = r.bits.toNat := by
  unfold OpcodeRow.Spells
  rw [hm, ← BitVec.toNat_inj, BitVec.toNat_and, ← mask_one_field _ w.isLt]; rfl

/-- A word whose reserved fields are zero is the command word of its other three fields. -/
theorem word_eq (w : Word) (h1 : rsv1Field w = 0) (h0 : rsv0Field w = 0) : w = commandWord (f2Field w) (f1Field w) (opField w) := by
  have := w.isLt
  rw [← BitVec.toNat_inj, rsv1Field_toNat] at h1
  rw [← BitVec.toNat_inj, rsv0Field_toNat] at h0
  simp at h1 h0
  rw [← BitVec.toNat_inj, commandWord_toNat, f1Field_toNat, f2Field_toNat, opField_toNat]
  omega

end Sys2Proof
end

