-- ==== Sys2Proof/Laws/State.lean ====
section
/-! SUPPORT. One lemma per field per update of the state: what each update writes and what it leaves. -/

namespace Sys2Proof.Machine

@[simp] theorem State.begin_cfg (s : State) : s.begin.cfg = s.cfg := rfl
@[simp] theorem State.begin_host (s : State) : s.begin.host = s.host := rfl
@[simp] theorem State.begin_ports (s : State) : s.begin.ports = s.ports := rfl
@[simp] theorem State.begin_w (s : State) : s.begin.w = zeroWords := rfl
@[simp] theorem State.begin_v (s : State) : s.begin.v = zeroWords := rfl
@[simp] theorem State.begin_c (s : State) : s.begin.c = 0 := rfl
@[simp] theorem State.begin_response (s : State) : s.begin.response = s.response := rfl

@[simp] theorem State.setW_cfg (s : State) (x : Words) : (s.setW x).cfg = s.cfg := rfl
@[simp] theorem State.setW_host (s : State) (x : Words) : (s.setW x).host = s.host := rfl
@[simp] theorem State.setW_ports (s : State) (x : Words) : (s.setW x).ports = s.ports := rfl
@[simp] theorem State.setW_w (s : State) (x : Words) : (s.setW x).w = x := rfl
@[simp] theorem State.setW_v (s : State) (x : Words) : (s.setW x).v = s.v := rfl
@[simp] theorem State.setW_c (s : State) (x : Words) : (s.setW x).c = s.c := rfl
@[simp] theorem State.setW_response (s : State) (x : Words) : (s.setW x).response = s.response := rfl

@[simp] theorem State.setV_cfg (s : State) (x : Words) : (s.setV x).cfg = s.cfg := rfl
@[simp] theorem State.setV_host (s : State) (x : Words) : (s.setV x).host = s.host := rfl
@[simp] theorem State.setV_ports (s : State) (x : Words) : (s.setV x).ports = s.ports := rfl
@[simp] theorem State.setV_w (s : State) (x : Words) : (s.setV x).w = s.w := rfl
@[simp] theorem State.setV_v (s : State) (x : Words) : (s.setV x).v = x := rfl
@[simp] theorem State.setV_c (s : State) (x : Words) : (s.setV x).c = s.c := rfl
@[simp] theorem State.setV_response (s : State) (x : Words) : (s.setV x).response = s.response := rfl

@[simp] theorem State.setC_cfg (s : State) (x : BitVec 5) : (s.setC x).cfg = s.cfg := rfl
@[simp] theorem State.setC_host (s : State) (x : BitVec 5) : (s.setC x).host = s.host := rfl
@[simp] theorem State.setC_ports (s : State) (x : BitVec 5) : (s.setC x).ports = s.ports := rfl
@[simp] theorem State.setC_w (s : State) (x : BitVec 5) : (s.setC x).w = s.w := rfl
@[simp] theorem State.setC_v (s : State) (x : BitVec 5) : (s.setC x).v = s.v := rfl
@[simp] theorem State.setC_c (s : State) (x : BitVec 5) : (s.setC x).c = x := rfl
@[simp] theorem State.setC_response (s : State) (x : BitVec 5) : (s.setC x).response = s.response := rfl

@[simp] theorem State.respond_cfg (s : State) (r : Response) : (s.respond r).cfg = s.cfg := rfl
@[simp] theorem State.respond_host (s : State) (r : Response) : (s.respond r).host = s.host := rfl
@[simp] theorem State.respond_ports (s : State) (r : Response) : (s.respond r).ports = s.ports := rfl
@[simp] theorem State.respond_w (s : State) (r : Response) : (s.respond r).w = s.w := rfl
@[simp] theorem State.respond_v (s : State) (r : Response) : (s.respond r).v = s.v := rfl
@[simp] theorem State.respond_c (s : State) (r : Response) : (s.respond r).c = s.c := rfl
@[simp] theorem State.respond_response (s : State) (r : Response) : (s.respond r).response = some r := rfl

@[simp] theorem State.store_cfg (s : State) (len : Byte) : (s.store len).cfg = s.cfg := rfl
@[simp] theorem State.store_host (s : State) (len : Byte) : (s.store len).host = s.host := rfl
@[simp] theorem State.store_ports (s : State) (len : Byte) : (s.store len).ports = s.ports := rfl
@[simp] theorem State.store_w (s : State) (len : Byte) : (s.store len).w = s.w := rfl
@[simp] theorem State.store_v (s : State) (len : Byte) : (s.store len).v = s.v := rfl
@[simp] theorem State.store_c (s : State) (len : Byte) : (s.store len).c = s.c := rfl
@[simp] theorem State.store_response (s : State) (len : Byte) : (s.store len).response = some (.bytes len (storeBytes s.w len)) := rfl

@[simp] theorem State.raise_cfg (s : State) (e : Status) : (s.raise e).cfg = s.cfg := rfl
@[simp] theorem State.raise_host (s : State) (e : Status) : (s.raise e).host = s.host := rfl
@[simp] theorem State.raise_ports (s : State) (e : Status) : (s.raise e).ports = s.ports := rfl
@[simp] theorem State.raise_w (s : State) (e : Status) : (s.raise e).w = s.w := rfl
@[simp] theorem State.raise_v (s : State) (e : Status) : (s.raise e).v = s.v := rfl
@[simp] theorem State.raise_c (s : State) (e : Status) : (s.raise e).c = s.c := rfl
@[simp] theorem State.raise_response (s : State) (e : Status) : (s.raise e).response = some (.error e) := rfl

@[simp] theorem State.accept_cfg (s : State) (p : Command) (rest : List HostAction) : (s.accept p rest).cfg = s.cfg := rfl
@[simp] theorem State.accept_host (s : State) (p : Command) (rest : List HostAction) : (s.accept p rest).host = rest := rfl
@[simp] theorem State.accept_ports (s : State) (p : Command) (rest : List HostAction) : (s.accept p rest).ports = p := rfl
@[simp] theorem State.accept_w (s : State) (p : Command) (rest : List HostAction) : (s.accept p rest).w = s.w := rfl
@[simp] theorem State.accept_v (s : State) (p : Command) (rest : List HostAction) : (s.accept p rest).v = s.v := rfl
@[simp] theorem State.accept_c (s : State) (p : Command) (rest : List HostAction) : (s.accept p rest).c = s.c := rfl
@[simp] theorem State.accept_response (s : State) (p : Command) (rest : List HostAction) : (s.accept p rest).response = s.response := rfl

@[simp] theorem State.illegal_cfg (s : State) : s.illegal.cfg = s.cfg := rfl
@[simp] theorem State.illegal_host (s : State) : s.illegal.host = s.host := rfl
@[simp] theorem State.illegal_ports (s : State) : s.illegal.ports = s.ports := rfl
@[simp] theorem State.illegal_w (s : State) : s.illegal.w = zeroWords := rfl
@[simp] theorem State.illegal_v (s : State) : s.illegal.v = zeroWords := rfl
@[simp] theorem State.illegal_c (s : State) : s.illegal.c = 0 := rfl
@[simp] theorem State.illegal_response (s : State) : s.illegal.response = some (.error .illegalCommand) := rfl

@[simp] theorem State.applyReset_cfg (s : State) : s.applyReset.cfg = s.cfg := rfl
@[simp] theorem State.applyReset_host (s : State) : s.applyReset.host = s.host := rfl
@[simp] theorem State.applyReset_ports (s : State) : s.applyReset.ports = s.ports := rfl
@[simp] theorem State.applyReset_w (s : State) : s.applyReset.w = zeroWords := rfl
@[simp] theorem State.applyReset_v (s : State) : s.applyReset.v = zeroWords := rfl
@[simp] theorem State.applyReset_c (s : State) : s.applyReset.c = 0 := rfl
@[simp] theorem State.applyReset_response (s : State) : s.applyReset.response = none := rfl

@[simp] theorem State.presentWord_cfg (s : State) (word : Word) : (s.presentWord word).cfg = s.cfg := rfl
@[simp] theorem State.presentWord_host (s : State) (word : Word) : (s.presentWord word).host = .issue { s.ports with cmd := word } :: s.host := rfl
@[simp] theorem State.presentWord_ports (s : State) (word : Word) : (s.presentWord word).ports = s.ports := rfl
@[simp] theorem State.presentWord_w (s : State) (word : Word) : (s.presentWord word).w = s.w := rfl
@[simp] theorem State.presentWord_v (s : State) (word : Word) : (s.presentWord word).v = s.v := rfl
@[simp] theorem State.presentWord_c (s : State) (word : Word) : (s.presentWord word).c = s.c := rfl
@[simp] theorem State.presentWord_response (s : State) (word : Word) : (s.presentWord word).response = s.response := rfl

end Sys2Proof.Machine
end

