-- ==== Sys2Proof/Laws/Ops.lean ====
section
/-! SUPPORT. What each shared operation does, said once: the byte-order converter, `load` and `store`, the shapes of a
response, the length test, the bodies of the commands, and the two ways a command can end. -/

namespace Sys2Proof.Machine

/-! ### The byte-order converter, `load` and `store` -/

theorem byteOf_toNat (k : Nat) (w : Word) : (byteOf k w).toNat = w.toNat / 2 ^ (24 - 8 * k) % 2 ^ 8 := by
  simp [byteOf, Nat.shiftRight_eq_div_pow]

theorem be32_toNat (b0 b1 b2 b3 : Byte) :
    (be32 b0 b1 b2 b3).toNat = b0.toNat * 2 ^ 24 + b1.toNat * 2 ^ 16 + b2.toNat * 2 ^ 8 + b3.toNat := by
  have h0 := b0.isLt; have h1 := b1.isLt; have h2 := b2.isLt; have h3 := b3.isLt
  simp only [be32, BitVec.toNat_append]
  rw [← Nat.shiftLeft_add_eq_or_of_lt h1, ← Nat.shiftLeft_add_eq_or_of_lt h2, ← Nat.shiftLeft_add_eq_or_of_lt h3]
  simp only [Nat.shiftLeft_eq]
  omega

theorem byteOf_zero (k : Nat) : byteOf k 0#32 = 0#8 := by simp [byteOf]

theorem byteOf_and (k : Nat) (a b : Word) : byteOf k (a &&& b) = byteOf k a &&& byteOf k b := by
  ext i hi; simp [byteOf]

theorem byteOf_or (k : Nat) (a b : Word) : byteOf k (a ||| b) = byteOf k a ||| byteOf k b := by
  ext i hi; simp [byteOf]

/-- Beyond the declared length a byte counts as zero. -/
theorem byteWithin_eq_zero (x : Buffer) (len : Byte) (j : Fin 16) (h : ¬ j.val < len.toNat) : byteWithin x len j = 0 := by
  simp [byteWithin, h]

/-- What `store` puts on `R`, byte by byte. -/
theorem storeBytes_get (w : Words) (len : Byte) (j : Nat) (h : j < 16) :
    (storeBytes w len)[j] = if j < len.toNat then byteOf (j % 4) w[j / 4] else 0 := by
  simp [storeBytes]

/-- What `load` puts in a word. -/
theorem load_get (x : Buffer) (len : Byte) (i : Nat) (h : i < 4) :
    (load x len)[i] =
      if 4 * i + 3 < len.toNat then be32 x[4 * i] x[4 * i + 1] x[4 * i + 2] x[4 * i + 3] else 0 := by
  simp [load]

/-- `load` reads the declared bytes only. -/
theorem load_congr (x y : Buffer) (len : Byte) (h : declared x len = declared y len) : load x len = load y len := by
  have key : ∀ j : Nat, (hj : j < 16) → j < len.toNat → x[j] = y[j] := by
    intro j hj hl
    have := congrArg (fun l => l[j]?) h
    simpa [declared, hl, hj] using this
  unfold load
  congr 1; funext i
  split_ifs with hi
  · rw [key _ _ (by omega), key _ _ (by omega), key _ _ (by omega), key _ _ (by omega)]
  · rfl

/-- `store` of two operands combined word by word, byte by byte. -/
theorem store_combine (f : Word → Word → Word) (g : Byte → Byte → Byte) (hf : ∀ k a b, byteOf k (f a b) = g (byteOf k a) (byteOf k b))
   (a b : Words) (len : Byte) (j : Fin 16) :
   (storeBytes (Vector.zipWith f a b) len)[j.val] =
     if j.val < len.toNat then g (byteOf (j.val % 4) a[j.val/4]) (byteOf (j.val % 4) b[j.val/4]) else 0 := by
  simp [storeBytes, hf]

/-! ### Responses -/

theorem bytesOut_nil : bytesOut [] = Vector.replicate 16 0 := by ext i hi; simp [bytesOut]

theorem textOut_nil : textOut [] = Vector.replicate 49 0 := by ext i hi; simp [textOut]

/-- An error response, field by field. -/
theorem error_eq (e : Status) : Response.error e = ⟨e.code, 0, Vector.replicate 16 0, 0, Vector.replicate 49 0⟩ := by
  simp [Response.error, textOut_nil, bytesOut_nil]

/-- The length of a text response. -/
theorem text_rtlen (t : Text) (h : t.length < 256) : (Response.text t).rtlen.toNat = t.length := by
  simp [Response.text]; omega

/-- The characters of a text response. -/
theorem text_rt (t : Text) (h : t.length ≤ 49) : (Response.text t).rt.toList.take t.length = t := by
  apply List.ext_getElem
  · simp; omega
  · intro i h1 h2
    simp only [List.getElem_take, Vector.getElem_toList]
    simp [Response.text, textOut, h2]

/-! ### The length tests -/

/-- The lengths `check_two` accepts. -/
theorem checkTwo_accepted {rule la lb} : checkTwo rule la lb = .accepted ↔ LengthsAccepted rule la lb := by
  unfold checkTwo LengthsAccepted
  cases rule <;> simp <;> grind

/-- What `check_two` accepts, `load` and `store` are defined for. -/
theorem accepted_whole {rule la lb} (h : LengthsAccepted rule la lb) : WholeWords la ∧ WholeWords lb := by
  unfold LengthsAccepted at h; grind

/-- The lengths `check_two` refuses. -/
theorem undefined_iff {rule la lb} : checkTwo rule la lb = .undefinedResult ↔
   rule = .literal ∧ ((ValidLen la ∧ ¬ WholeWords lb) ∨ (¬ WholeWords la ∧ ValidLen lb)) := by
  unfold checkTwo
  cases rule <;> simp <;> grind

/-- The lengths `check_two` rejects. -/
theorem invalid_iff {rule la lb} : checkTwo rule la lb = .invalid ↔
   (rule = .literal ∧ ¬ ValidLen la ∧ ¬ ValidLen lb) ∨ (rule = .strict ∧ (¬ ValidLen la ∨ ¬ ValidLen lb)) := by
  unfold checkTwo
  cases rule <;> simp <;> grind

theorem valid_whole {l : Byte} (h : ValidLen l) : WholeWords l := by rcases h with rfl | rfl <;> simp [WholeWords]

/-- The unsupported families. -/
theorem familyOf_none (c : Byte) : familyOf c = none ↔ c ≠ 4 ∧ c ≠ 6 := by
  unfold familyOf; split_ifs with h1 h2 <;> simp_all

/-! ### The bodies of the commands -/

/-- The combination of the two operands, word by word. -/
theorem combine_eq (f : Word → Word → Word) (s : State) : s.combine f = s.setW (Vector.zipWith f s.w s.v) := by
  unfold State.combine
  congr 1
  ext1 i hi
  simp

/-- AND and OR in one equation. -/
theorem combineAddresses_eq (f : Word → Word → Word) (lenA lenB : Byte) (s : State) :
    combineAddresses f lenA lenB s = match checkTwo s.cfg.lenRule lenA lenB with
      | .invalid => .next (s.begin.raise .invalidAddress)
      | .undefinedResult => .refused (.undefinedLength lenA lenB)
      | .accepted =>
        .next ((((s.begin.setW (load s.ports.a lenA)).setV (load s.ports.b lenB)).combine f).store lenA) := by
  unfold combineAddresses
  simp only [State.begin_cfg]
  cases checkTwo s.cfg.lenRule lenA lenB <;> rfl

/-- ANDI and ORI in one equation. -/
theorem combineInteger_eq (f : Word → Word → Word) (lenA : Byte) (s : State) :
    combineInteger f lenA s = if IntegerInvalid s.cfg lenA s.ports.n then .next (s.begin.raise .invalidAddress)
      else .next ((((s.begin.setW (load s.ports.a lenA)).setV (integerOperand s.cfg lenA s.ports.n)).combine f).store lenA) := rfl

/-- SHL and SHR in one equation. -/
theorem shiftAddress_eq (ws bs) (lenA : Byte) (s : State) :
    shiftAddress ws bs lenA s = if ShiftInvalid s.cfg lenA s.ports.n then .next (s.begin.raise .invalidAddress)
      else .next ((s.begin.shift ws bs lenA).store lenA) := rfl

/-- The shift of a command just begun. -/
theorem shift_eq (ws bs) (s : State) (lenA : Byte) : s.begin.shift ws bs lenA =
   if shiftCount s.cfg s.ports.n < 128 then ((s.begin.setW (load s.ports.a lenA)).setC (BitVec.ofNat 5 (shiftCount s.cfg s.ports.n % 32))).setW
     (bs (ws (load s.ports.a lenA) (shiftCount s.cfg s.ports.n / 32)) (BitVec.ofNat 5 (shiftCount s.cfg s.ports.n % 32))) else s.begin := rfl

/-- The working value at `store`. -/
theorem shift_w (ws bs) (s : State) (lenA : Byte) : (s.begin.shift ws bs lenA).w =
   if shiftCount s.cfg s.ports.n < 128 then bs (ws (load s.ports.a lenA) (shiftCount s.cfg s.ports.n / 32)) (BitVec.ofNat 5 (shiftCount s.cfg s.ports.n % 32)) else zeroWords := by
  rw [shift_eq]
  by_cases h : shiftCount s.cfg s.ports.n < 128
  · rw [if_pos h, if_pos h]; rfl
  · rw [if_neg h, if_neg h]; rfl

/-- What AND and OR answer. -/
theorem answer_combineAddresses (f : Word → Word → Word) (lenA lenB : Byte) (s : State) :
    answer (combineAddresses f lenA lenB s) = match checkTwo s.cfg.lenRule lenA lenB with
      | .invalid => some (.error .invalidAddress)
      | .undefinedResult => none
      | .accepted => some (.bytes lenA (storeBytes (Vector.zipWith f (load s.ports.a lenA) (load s.ports.b lenB)) lenA)) := by
  unfold combineAddresses
  simp only [State.begin_cfg, combine_eq]
  cases checkTwo s.cfg.lenRule lenA lenB <;> rfl

/-- What ANDI and ORI answer. -/
theorem answer_combineInteger (f : Word → Word → Word) (lenA : Byte) (s : State) :
    answer (combineInteger f lenA s) = some (if IntegerInvalid s.cfg lenA s.ports.n then .error .invalidAddress
      else .bytes lenA (storeBytes (Vector.zipWith f (load s.ports.a lenA) (integerOperand s.cfg lenA s.ports.n)) lenA)) := by
  rw [combineInteger_eq, combine_eq]
  by_cases h : IntegerInvalid s.cfg lenA s.ports.n
  · rw [if_pos h, if_pos h]; rfl
  · rw [if_neg h, if_neg h]; rfl

/-- What SHL and SHR answer. -/
theorem answer_shiftAddress (ws bs) (lenA : Byte) (s : State) :
    answer (shiftAddress ws bs lenA s) = some (if ShiftInvalid s.cfg lenA s.ports.n then .error .invalidAddress
      else .bytes lenA (storeBytes (s.begin.shift ws bs lenA).w lenA)) := by
  rw [shiftAddress_eq]
  by_cases h : ShiftInvalid s.cfg lenA s.ports.n
  · rw [if_pos h, if_pos h]; rfl
  · rw [if_neg h, if_neg h]; rfl

/-- What FORMAT answers. -/
theorem answer_execFormat (lenA : Byte) (s : State) :
    answer (execFormat lenA s) = some (if ¬ ValidLen lenA then .error .invalidAddress
      else if lenA = 4 then .text (format4 (s.ports.a.toList.take 4)) else .text (format6 s.ports.a)) := by
  unfold execFormat
  split_ifs <;> rfl

/-- What PARSE answers. -/
theorem answer_execParse (family tlen : Byte) (s : State) :
    answer (execParse family tlen s) = some (if textMax < tlen.toNat then .error .invalidAddress
      else match familyOf family with
       | none => .error .unsupportedFamily
       | some f => match parseAs f (s.ports.text tlen) with
         | none => .error .invalidAddress
         | some bs => .bytes f.addressLen (bytesOut bs)) := by
  unfold execParse
  simp only [State.begin_ports]
  split_ifs
  · rfl
  · cases familyOf family with
    | none => rfl
    | some f => dsimp only; cases parseAs f (s.ports.text tlen) <;> rfl

/-! ### The two ways a command can end -/

/-- Every command either answers and leaves the parameters, the host and the sampled ports alone, or is an AND or OR with lengths the spec leaves undefined. -/
theorem exec_cases (i : Instr) (s : State) :
    (∃ t r, exec i s = .next t ∧ t.cfg = s.cfg ∧ t.host = s.host ∧ t.ports = s.ports ∧ t.response = some r) ∨
    (∃ la lb, (i = .and la lb ∨ i = .or la lb) ∧ checkTwo s.cfg.lenRule la lb = .undefinedResult ∧ exec i s = .refused (.undefinedLength la lb)) := by
  have hA : ∀ f la lb, (∃ t r, combineAddresses f la lb s = .next t ∧ t.cfg = s.cfg ∧ t.host = s.host ∧ t.ports = s.ports ∧ t.response = some r) ∨
      (checkTwo s.cfg.lenRule la lb = .undefinedResult ∧ combineAddresses f la lb s = .refused (.undefinedLength la lb)) := by
    intro f la lb
    unfold combineAddresses
    simp only [State.begin_cfg]
    cases h : checkTwo s.cfg.lenRule la lb
    · exact Or.inl ⟨_, _, rfl, rfl, rfl, rfl, rfl⟩
    · exact Or.inl ⟨_, _, rfl, rfl, rfl, rfl, rfl⟩
    · exact Or.inr ⟨rfl, rfl⟩
  have hI : ∀ f la, (∃ t r, combineInteger f la s = .next t ∧ t.cfg = s.cfg ∧ t.host = s.host ∧ t.ports = s.ports ∧ t.response = some r) := by
    intro f la
    unfold combineInteger
    dsimp only
    split_ifs <;> exact ⟨_, _, rfl, rfl, rfl, rfl, rfl⟩
  have hS : ∀ ws bs la, (∃ t r, shiftAddress ws bs la s = .next t ∧ t.cfg = s.cfg ∧ t.host = s.host ∧ t.ports = s.ports ∧ t.response = some r) := by
    intro ws bs la
    unfold shiftAddress State.shift
    dsimp only
    split_ifs <;> exact ⟨_, _, rfl, rfl, rfl, rfl, rfl⟩
  cases i with
  | parse f n =>
    left
    simp only [exec, execParse]
    split_ifs
    · exact ⟨_, _, rfl, rfl, rfl, rfl, rfl⟩
    · split
      · exact ⟨_, _, rfl, rfl, rfl, rfl, rfl⟩
      · split <;> exact ⟨_, _, rfl, rfl, rfl, rfl, rfl⟩
  | format l => 
    left
    simp only [exec, execFormat]
    split_ifs <;> exact ⟨_, _, rfl, rfl, rfl, rfl, rfl⟩
  | shl l => exact Or.inl (hS _ _ _)
  | shr l => exact Or.inl (hS _ _ _)
  | andi l => exact Or.inl (hI _ _)
  | ori l => exact Or.inl (hI _ _)
  | and la lb => exact (hA _ la lb).imp id fun h => ⟨la, lb, Or.inl rfl, h⟩
  | or la lb => exact (hA _ la lb).imp id fun h => ⟨la, lb, Or.inr rfl, h⟩

/-- What every command that goes on leaves alone. -/
theorem exec_frame (i : Instr) (s t : State) (h : exec i s = .next t) : t.cfg = s.cfg ∧ t.host = s.host ∧ t.ports = s.ports ∧ ∃ r, t.response = some r := by
  rcases exec_cases i s with ⟨t', r, h1, h2, h3, h4, h5⟩ | ⟨la, lb, -, -, h'⟩
  · rw [h1] at h; cases h; exact ⟨h2, h3, h4, r, h5⟩
  · rw [h'] at h; cases h

/-- What a refusal means. -/
theorem exec_refused (i : Instr) (s : State) (r : Refusal) (h : exec i s = .refused r) :
    ∃ la lb, (i = .and la lb ∨ i = .or la lb) ∧ checkTwo s.cfg.lenRule la lb = .undefinedResult ∧ r = .undefinedLength la lb := by
  rcases exec_cases i s with ⟨t', r, h1, h2, h3, h4, h5⟩ | ⟨la, lb, h1, h2, h'⟩
  · rw [h1] at h; cases h
  · rw [h'] at h; cases h; exact ⟨la, lb, h1, h2, rfl⟩

end Sys2Proof.Machine
end

