-- ==== Sys2Proof/Laws/PerInstr.lean ====
section
/-! SUPPORT. What holds of every instruction as syntax: its word is of its own row of the opcode table. -/

namespace Sys2Proof.Laws.EncodesItsRow

/-- The word of an instruction is one its row of the opcode table spells (`30_encoding.md` R52, R61). -/
def Statement (i : Instr) : Prop := i.row.Spells (encode i)

theorem two_fields (r : OpcodeRow) (f2 f1 : Byte) (op : BitVec 4) (hm : r.mask = 0xFF0000FF)
    (hb : r.bits.toNat = op.toNat) : r.Spells (commandWord f2 f1 op) := by
  have := f2.isLt
  have := f1.isLt
  have := op.isLt
  rw [spells_two_fields _ _ hm, hb, commandWord_toNat]
  omega

theorem one_field (r : OpcodeRow) (f1 : Byte) (op : BitVec 4) (hm : r.mask = 0xFFFF00FF)
    (hb : r.bits.toNat = op.toNat) : r.Spells (commandWord 0 f1 op) := by
  have := f1.isLt
  have := op.isLt
  rw [spells_one_field _ _ hm, hb, commandWord_toNat, show (0 : Byte).toNat = 0 from rfl]
  omega

theorem parse (family tlen : Byte) : Statement (.parse family tlen) := two_fields _ _ _ _ rfl rfl
theorem format (lenA : Byte) : Statement (.format lenA) := one_field _ _ _ rfl rfl
theorem shl (lenA : Byte) : Statement (.shl lenA) := one_field _ _ _ rfl rfl
theorem shr (lenA : Byte) : Statement (.shr lenA) := one_field _ _ _ rfl rfl
theorem and (lenA lenB : Byte) : Statement (.and lenA lenB) := two_fields _ _ _ _ rfl rfl
theorem andi (lenA : Byte) : Statement (.andi lenA) := one_field _ _ _ rfl rfl
theorem or (lenA lenB : Byte) : Statement (.or lenA lenB) := two_fields _ _ _ _ rfl rfl
theorem ori (lenA : Byte) : Statement (.ori lenA) := one_field _ _ _ rfl rfl

end Sys2Proof.Laws.EncodesItsRow
end

