-- ==== Sys2Proof/Laws/Shift.lean ====
section
/-! SUPPORT. The working value as one 128-bit number, and the pieces of the shift steps. -/

namespace Sys2Proof.Machine

theorem V128_lt (w : Words) : V128 w < 2 ^ 128 := by
  have h0 := w[0].isLt; have h1 := w[1].isLt; have h2 := w[2].isLt; have h3 := w[3].isLt
  unfold V128; omega

theorem V128_zero : V128 zeroWords = 0 := by simp [V128, zeroWords]

/-- The merge of two neighbouring words of a right shift. -/
theorem merge_right_toNat (a b : Word) (c : Nat) (hc : c < 32) :
    ((a <<< (32 - c)) ||| (b >>> c)).toNat = a.toNat % 2 ^ c * 2 ^ (32 - c) + b.toNat / 2 ^ c := by
  have hb := b.isLt
  have hd : b.toNat / 2 ^ c < 2 ^ (32 - c) := by
    rw [Nat.div_lt_iff_lt_mul (by positivity), ← pow_add]; convert hb using 2; omega
  have he : a.toNat * 2 ^ (32 - c) % 2 ^ 32 = a.toNat % 2 ^ c * 2 ^ (32 - c) := by
    conv_lhs => rw [show (2:Nat) ^ 32 = 2 ^ c * 2 ^ (32 - c) by rw [← pow_add]; congr 1; omega]
    rw [Nat.mul_mod_mul_right]
  simp only [BitVec.toNat_or, BitVec.toNat_shiftLeft, BitVec.toNat_ushiftRight, Nat.shiftLeft_eq, Nat.shiftRight_eq_div_pow, he]
  rw [← Nat.shiftLeft_eq, Nat.shiftLeft_add_eq_or_of_lt hd]

/-- The merge of two neighbouring words of a left shift. -/
theorem merge_left_toNat (a b : Word) (c : Nat) (hc : c < 32) (hz : c ≠ 0) :
    ((a >>> (32 - c)) ||| (b <<< c)).toNat = a.toNat / 2 ^ (32 - c) + b.toNat % 2 ^ (32 - c) * 2 ^ c := by
  have := merge_right_toNat b a (32 - c) (by omega)
  rw [show 32 - (32 - c) = c by omega] at this
  rw [BitVec.or_comm, this, Nat.add_comm]

/-- The word step of a right shift as a division. -/
theorem wordRight_V128 (w : Words) (q : Nat) (h : q < 4) : V128 (wordRight w q) = V128 w / 2 ^ (32 * q) := by
  have h0 := w[0].isLt; have h1 := w[1].isLt; have h2 := w[2].isLt; have h3 := w[3].isLt
  interval_cases q <;> simp [V128, wordRight] <;> omega

/-- The word step of a left shift as a multiplication. -/
theorem wordLeft_V128 (w : Words) (q : Nat) (h : q < 4) : V128 (wordLeft w q) = V128 w * 2 ^ (32 * q) % 2 ^ 128 := by
  have h0 := w[0].isLt; have h1 := w[1].isLt; have h2 := w[2].isLt; have h3 := w[3].isLt
  interval_cases q <;> simp [V128, wordLeft] <;> omega

end Sys2Proof.Machine
end

