-- ==== Sys2Proof/Laws/Text.lean ====
section
/-! SUPPORT. Characters, cutting and joining texts, and zero runs. -/

namespace Sys2Proof.Machine

/-! ### Characters -/

theorem decValue_iff (c : Byte) (v : Nat) : decValue c = some v ↔ IsDigit c v := by
  unfold decValue IsDigit; split_ifs <;> simp <;> omega

theorem hexValue_iff (c : Byte) (v : Nat) : hexValue c = some v ↔ IsHexDigit c v := by
  unfold hexValue IsHexDigit IsDigit; split_ifs <;> simp <;> omega

theorem digit_ne_dot {c v} (h : IsDigit c v) : c ≠ dot := by
  rintro rfl; have := h.2; have h1 : dot.toNat = 0x2E := rfl; omega

theorem hexDigit_ne_dot {c v} (h : IsHexDigit c v) : c ≠ dot := by
  rintro rfl
  have h1 : dot.toNat = 0x2E := rfl
  unfold IsHexDigit IsDigit at h; omega

theorem hexDigit_ne_colon {c v} (h : IsHexDigit c v) : c ≠ colon := by
  rintro rfl
  have h1 : colon.toNat = 0x3A := rfl
  unfold IsHexDigit IsDigit at h; omega

theorem digit_ne_colon {c v} (h : IsDigit c v) : c ≠ colon := hexDigit_ne_colon (Or.inl h)

theorem hexDigit_lt {c v} (h : IsHexDigit c v) : v < 16 := by unfold IsHexDigit IsDigit at h; omega

theorem decChar_digit (d : Nat) (h : d < 10) : IsDigit (decChar d) d := by
  refine ⟨h, ?_⟩; simp [decChar]; omega

theorem hexChar_digit (d : Nat) (h : d < 16) : IsHexDigit (hexChar d) d := by
  unfold hexChar
  split_ifs with h1
  · exact Or.inl (decChar_digit d h1)
  · refine Or.inr ⟨by omega, h, Or.inl ?_⟩; simp; omega

theorem hexChar_lower (d : Nat) (h : d < 16) : ¬ (0x41 ≤ (hexChar d).toNat ∧ (hexChar d).toNat ≤ 0x46) := by
  interval_cases d <;> decide

/-! ### Cutting and joining -/

theorem cutAt_ne_nil (sep : Byte) (t : Text) : cutAt sep t ≠ [] := by
  cases t with
  | nil => simp [cutAt]
  | cons c cs => unfold cutAt; split_ifs <;> [simp; (split <;> simp)]

theorem join_cutAt (sep : Byte) (t : Text) : joinWith sep (cutAt sep t) = t := by
  induction t with
  | nil => rfl
  | cons c cs ih =>
    unfold cutAt
    split_ifs with h
    · subst h
      cases hc : cutAt c cs with
      | nil => exact absurd hc (cutAt_ne_nil _ _)
      | cons p ps => rw [hc] at ih; simp [joinWith, ih]
    · cases hc : cutAt sep cs with
      | nil => exact absurd hc (cutAt_ne_nil _ _)
      | cons p ps =>
        rw [hc] at ih
        cases ps with
        | nil => simp [joinWith] at ih ⊢; exact ih
        | cons q qs => simp [joinWith] at ih ⊢; exact ih

theorem sep_notMem_cutAt (sep : Byte) (t : Text) : ∀ p ∈ cutAt sep t, sep ∉ p := by
  induction t with
  | nil => simp [cutAt]
  | cons c cs ih =>
    unfold cutAt
    split_ifs with h
    · simpa using ih
    · cases hc : cutAt sep cs with
      | nil => simp; exact fun e => h e.symm
      | cons p ps =>
        rw [hc] at ih
        simp at ih ⊢
        exact ⟨⟨fun e => h e.symm, ih.1⟩, ih.2⟩

theorem cutAt_free (sep : Byte) (p : Text) (h : sep ∉ p) : cutAt sep p = [p] := by
  induction p with
  | nil => rfl
  | cons c cs ih =>
    simp at h
    simp [cutAt, ih h.2, Ne.symm (show sep ≠ c from h.1)]

theorem cutAt_append (sep : Byte) (p t : Text) (h : sep ∉ p) : cutAt sep (p ++ sep :: t) = p :: cutAt sep t := by
  induction p with
  | nil => simp [cutAt]
  | cons c cs ih =>
    simp at h
    simp [cutAt, ih h.2, Ne.symm (show sep ≠ c from h.1)]

theorem cutAt_join (sep : Byte) (ps : List Text) (h0 : ps ≠ []) (h : ∀ p ∈ ps, sep ∉ p) : cutAt sep (joinWith sep ps) = ps := by
  induction ps with
  | nil => exact absurd rfl h0
  | cons p ps ih =>
    cases ps with
    | nil => exact cutAt_free sep p (h p (by simp))
    | cons q qs =>
      rw [joinWith, cutAt_append _ _ _ (h p (by simp)), ih (by simp) (fun r hr => h r (by simp [hr]))]
      simp

theorem mapM_eq_some_cons {α β} (f : α → Option β) (a : α) (l : List α) (r : List β) :
    (a :: l).mapM f = some r ↔ ∃ b bs, f a = some b ∧ l.mapM f = some bs ∧ r = b :: bs := by
  simp only [List.mapM_cons, Option.bind_eq_bind, Option.bind_eq_some_iff, Option.pure_def, Option.some.injEq]
  constructor
  · rintro ⟨b, h1, bs, h2, rfl⟩; exact ⟨b, bs, h1, h2, rfl⟩
  · rintro ⟨b, bs, h1, h2, rfl⟩; exact ⟨b, h1, bs, h2, rfl⟩

theorem mapM_forall₂ {α β} (f : α → Option β) (l : List α) (r : List β) : l.mapM f = some r ↔ List.Forall₂ (fun a b => f a = some b) l r := by
  induction l generalizing r with
  | nil => simp [eq_comm]
  | cons a l ih =>
    rw [mapM_eq_some_cons]
    constructor
    · rintro ⟨b, bs, h1, h2, rfl⟩; exact .cons h1 ((ih _).1 h2)
    · intro h; cases h with | cons h1 h2 => exact ⟨_, _, h1, (ih _).2 h2, rfl⟩

/-! ### Zero runs -/

theorem zeroRun_le (gs : List (BitVec 16)) : zeroRun gs ≤ gs.length := by
  induction gs with
  | nil => simp [zeroRun]
  | cons g gs ih => unfold zeroRun; split_ifs <;> simp; omega

theorem zeroRun_zero (gs : List (BitVec 16)) (i : Nat) (h : i < zeroRun gs) : gs[i]? = some 0 := by
  induction gs generalizing i with
  | nil => simp [zeroRun] at h
  | cons g gs ih =>
    unfold zeroRun at h
    split_ifs at h with hg
    · cases i with
      | zero => simp [hg]
      | succ i => simpa using ih i (by omega)
    · omega

theorem zeroRun_stop (gs : List (BitVec 16)) : gs[zeroRun gs]? ≠ some 0 := by
  induction gs with
  | nil => simp
  | cons g gs ih =>
    unfold zeroRun
    split_ifs with hg
    · simpa using ih
    · simpa using hg

theorem zeroRun_unique (gs : List (BitVec 16)) (l : Nat) (h1 : ∀ i < l, gs[i]? = some 0) (h2 : gs[l]? ≠ some 0) : zeroRun gs = l := by
  rcases Nat.lt_trichotomy (zeroRun gs) l with h | h | h
  · exact absurd (h1 _ h) (zeroRun_stop gs)
  · exact h
  · exact absurd (zeroRun_zero gs l h) h2

theorem isZeroRun_iff (gs : List (BitVec 16)) (s l : Nat) :
    IsZeroRun gs s l ↔ 1 ≤ l ∧ zeroRun (gs.drop s) = l ∧ (s = 0 ∨ gs[s - 1]? ≠ some 0) := by
  unfold IsZeroRun
  constructor
  · rintro ⟨h1, h2, h3, h4, h5⟩
    refine ⟨h1, zeroRun_unique _ _ (fun i hi => ?_) ?_, h4⟩
    · rw [List.getElem?_drop]; exact h3 _ (by omega) (by omega)
    · rw [List.getElem?_drop]
      rcases h5 with h5 | h5
      · rw [h5]; simp
      · exact h5
  · rintro ⟨h1, h2, h3⟩
    have hle := zeroRun_le (gs.drop s)
    simp at hle
    refine ⟨h1, by omega, fun i hi hi' => ?_, h3, ?_⟩
    · have := zeroRun_zero (gs.drop s) (i - s) (by omega)
      rw [List.getElem?_drop] at this
      rwa [show s + (i - s) = i by omega] at this
    · right
      have := zeroRun_stop (gs.drop s)
      rwa [List.getElem?_drop, h2] at this

end Sys2Proof.Machine
end

