-- ==== Sys2Proof/Tests/Slice0.lean ====
section
/-! SUPPORT. The model's own tests: words decoded, vectors of `95_test_vectors.md` run one step each, the ill-formed commands,
and for each statement with hypotheses a state and operands that meet them. -/

namespace Sys2Proof.Tests

open Sys2Proof Sys2Proof.Machine

/-! ### Helpers -/

/-- A command presented with the given bytes, integer and text, the ports zero beyond them. -/
def presented (cmd : Word) (a b : List Byte) (n : Int) (t : Text) : Command :=
  { cmd := cmd, a := bytesOut a, b := bytesOut b, n := BitVec.ofInt 64 n, t := Vector.ofFn fun i => t.getD i.val 0 }

/-- A CORE that has just accepted a command. -/
def accepted (cfg : Config) (a b : List Byte) (n : Int) (t : Text) : State :=
  { State.resetWith cfg with ports := presented 0 a b n t }

/-- A CORE in the default configuration that has just accepted a command. -/
def given (a b : List Byte) (n : Int) (t : Text) : State := accepted .default a b n t

/-- A CORE whose host has the given things to do. -/
def hosted (cfg : Config) (host : List HostAction) : State := { State.resetWith cfg with host := host }

/-- The default configuration with a 32-bit integer. -/
def narrow : Config := { Config.default with intWidth := .w32 }

/-- The default configuration with the strict length test. -/
def strict : Config := { Config.default with lenRule := .strict }

/-- The status and the result bytes of an outcome. -/
def bytesOf (o : Outcome) : Option (Nat × List Byte) :=
  (answer o).map fun r => (r.status.toNat, r.r.toList.take r.rlen.toNat)

/-- The status and the result text of an outcome. -/
def textOf (o : Outcome) : Option (Nat × Text) :=
  (answer o).map fun r => (r.status.toNat, r.rt.toList.take r.rtlen.toNat)

/-- `x16` of `95_test_vectors.md`. -/
def x16 : List Byte := [0x01, 0x23, 0x45, 0x67, 0x89, 0xab, 0xcd, 0xef, 0xfe, 0xdc, 0xba, 0x98, 0x76, 0x54, 0x32, 0x10]

/-! ### Decoding: words written out field by field from `30_encoding.md` R50 and R52 -/

theorem test_decode_parse : decode 0b00000000_00110001_00000110_0000_0001 = .ok (.parse 6 49) := by decide
theorem test_decode_format : decode 0b00000000_00000000_11111111_0000_0010 = .ok (.format 255) := by decide
theorem test_decode_shl : decode 0b00000000_00000000_00010000_0000_0011 = .ok (.shl 16) := by decide
theorem test_decode_shr : decode 0b00000000_00000000_00000100_0000_0100 = .ok (.shr 4) := by decide
theorem test_decode_and : decode 0b00000000_00010000_00000100_0000_0101 = .ok (.and 4 16) := by decide
theorem test_decode_andi : decode 0b00000000_00000000_10000000_0000_0110 = .ok (.andi 128) := by decide
theorem test_decode_or : decode 0b00000000_00001100_00010000_0000_0111 = .ok (.or 16 12) := by decide
theorem test_decode_ori : decode 0b00000000_00000000_00000001_0000_1000 = .ok (.ori 1) := by decide

/-- Illegal words of `95_test_vectors.md` section 2. -/
theorem test_decode_illegal :
    decode 0x00000000 = .error .noSuchOpcode ∧ decode 0x00000009 = .error .noSuchOpcode ∧
    decode 0x00000412 = .error .reservedBits ∧ decode 0x01000404 = .error .reservedBits ∧
    decode 0x00010402 = .error .unusedField ∧ decode 0x00100008 = .error .unusedField := by decide

theorem test_decodeTableWord : decodeTableWord 32 0x000B0401 = some (.parse 4 11) ∧ decodeTableWord 32 0 = none := by decide

/-! ### Ill-formed commands (`41_boolean.md` R71) -/

theorem test_wellFormed_and_refused : (Instr.and 7 4).wellFormed .default = false := by decide
theorem test_wellFormed_or_refused : (Instr.or 4 20).wellFormed .default = false := by decide
theorem test_wellFormed_word_lengths : (Instr.and 8 4).wellFormed .default = true := by decide
theorem test_wellFormed_strict : (Instr.and 7 4).wellFormed strict = true := by decide

/-! ### One step of each command (`95_test_vectors.md` sections 1 to 8) -/

theorem test_and_mixed_lengths :
    bytesOf (exec (.and 16 4) (given x16 [0xff, 0xff, 0xff, 0x00] 0 [])) =
      some (0, [0x01, 0x23, 0x45, 0, 0, 0, 0, 0, 0, 0, 0, 0, 0, 0, 0, 0]) := by decide
theorem test_and_refuses_lengths_without_meaning :
    exec (.and 7 4) (given [] [] 0 []) = .refused (.undefinedLength 7 4) := rfl
theorem test_or_mixed_lengths :
    bytesOf (exec (.or 4 16) (given [0xc0, 0xa8, 0x01, 0x00] [0, 0, 0, 0xff, 1, 2] 0 [])) =
      some (0, [0xc0, 0xa8, 0x01, 0xff]) := by decide
theorem test_or_strict : bytesOf (exec (.or 8 4) (accepted strict x16 x16 0 [])) = some (1, []) := by decide
theorem test_andi_scenario : bytesOf (exec (.andi 4) (given [255, 255, 255, 255] [] 0x00FFFFFF [])) = some (0, [0, 255, 255, 255]) := by
  decide
theorem test_andi_minus_one_narrow :
    bytesOf (exec (.andi 16) (accepted narrow x16 [] (-1) [])) =
      some (0, [0, 0, 0, 0, 0, 0, 0, 0, 0, 0, 0, 0, 0x76, 0x54, 0x32, 0x10]) := by decide
theorem test_ori_minus_two :
    bytesOf (exec (.ori 16) (given [] [] (-2) [])) =
      some (0, [0, 0, 0, 0, 0, 0, 0, 0, 0xff, 0xff, 0xff, 0xff, 0xff, 0xff, 0xff, 0xfe]) := by decide
theorem test_ori_out_of_range : bytesOf (exec (.ori 4) (given [] [] 0x100000000 [])) = some (1, []) := by decide
theorem test_shr_across_words :
    bytesOf (exec (.shr 16) (given x16 [] 4 [])) =
      some (0, [0x00, 0x12, 0x34, 0x56, 0x78, 0x9a, 0xbc, 0xde, 0xff, 0xed, 0xcb, 0xa9, 0x87, 0x65, 0x43, 0x21]) := by decide
theorem test_shr_negative : bytesOf (exec (.shr 16) (given x16 [] (-1) [])) = some (1, []) := by decide
theorem test_shl_scenario :
    bytesOf (exec (.shl 16) (given [0, 0, 0, 0, 0, 0, 0, 0, 0, 0, 0, 0, 0xaa, 0xbb, 0xcc, 0xdd] [] 32 [])) =
      some (0, [0, 0, 0, 0, 0, 0, 0, 0, 0xaa, 0xbb, 0xcc, 0xdd, 0, 0, 0, 0]) := by decide
theorem test_shl_to_zero : bytesOf (exec (.shl 4) (given [1, 2, 3, 4] [] 128 [])) = some (0, [0, 0, 0, 0]) := by decide
theorem test_format_four :
    textOf (exec (.format 4) (given [192, 168, 1, 1] [] 0 [])) =
      some (0, [0x31, 0x39, 0x32, 0x2e, 0x31, 0x36, 0x38, 0x2e, 0x31, 0x2e, 0x31]) := by decide
theorem test_format_mapped :
    textOf (exec (.format 16) (given [0, 0, 0, 0, 0, 0, 0, 0, 0, 0, 0xff, 0xff, 0xc0, 0xa8, 1, 1] [] 0 [])) =
      some (0, [0x3a, 0x3a, 0x66, 0x66, 0x66, 0x66, 0x3a, 0x63, 0x30, 0x61, 0x38, 0x3a, 0x31, 0x30, 0x31]) := by decide
theorem test_parse_four :
    bytesOf (exec (.parse 4 11) (given [] [] 0 [0x31, 0x39, 0x32, 0x2e, 0x31, 0x36, 0x38, 0x2e, 0x31, 0x2e, 0x31])) =
      some (0, [192, 168, 1, 1]) := by decide +kernel
theorem test_parse_too_long_first : bytesOf (exec (.parse 5 50) (given [] [] 0 [])) = some (1, []) := by decide

/-- A word placed where the next command is taken from is run by the next step, first after reset. -/
theorem test_first_step_after_reset :
    bytesOf (step (State.reset.withFetchWord 32 0x00040405)) = some (0, [0, 0, 0, 0]) ∧
    bytesOf (step (State.reset.withFetchWord 32 0x00000000)) = some (3, []) := by decide

/-! ### A state and operands for the hypotheses of each statement -/

theorem witness_ResetLeavesTheCoreIdle :
    (hosted .default [.reset]).host = .reset :: [] ∧
    (hosted .default [.issueAborted .idle]).host = .issueAborted .idle :: [] := ⟨rfl, rfl⟩
theorem witness_AbortedCommandLeavesNoTrace :
    (hosted .default [.issueAborted .idle, .issue .idle]).host = .issueAborted .idle :: .issue .idle :: [] := rfl
theorem witness_IdleStepChangesNothing : State.reset.host = [] := rfl
theorem witness_StepRunsTheDecodedCommand :
    (hosted .default [.issue (presented 0x00000404 [1, 2, 3, 4] [] 8 [])]).host =
      .issue (presented 0x00000404 [1, 2, 3, 4] [] 8 []) :: [] ∧ decode 0x00000404 = .ok (.shr 4) := ⟨rfl, by decide⟩
theorem witness_IllegalWordIsAnswered : (hosted .default [.issue .idle]).host = .issue .idle :: [] ∧ IllegalWord Command.idle.cmd :=
  ⟨rfl, Or.inl rfl⟩
theorem witness_EveryIssuedCommandIsAnswered :
    (hosted .default [.issue (presented 0x00040805 [] [] 0 [])]).host = .issue (presented 0x00040805 [] [] 0 []) :: [] ∧
    ∀ i, decode 0x00040805 = .ok i → i.wellFormed (hosted .default []).cfg := by
  refine ⟨rfl, fun i h => ?_⟩
  have e : decode 0x00040805 = .ok (.and 8 4) := by decide
  rw [e] at h
  cases h
  decide
theorem witness_OnlyUndefinedLengthsStopTheCore :
    step (hosted .default [.issue (presented 0x00040705 [] [] 0 [])]) = .refused (.undefinedLength 7 4) ∧
    step (hosted .default [.issue (presented 0x00FF1007 [] [] 0 [])]) = .refused (.undefinedLength 16 255) := ⟨rfl, rfl⟩
theorem witness_StepKeepsTheParameters : ∃ t, step (hosted narrow [.reset]) = .next t := ⟨_, rfl⟩
theorem witness_StepKeepsResponsesCanonical :
    ∃ s t, s.Inv ∧ s.response ≠ none ∧ step s = .next t ∧ t.response ≠ none := by
  refine ⟨{ hosted .default [.issue (presented 0x00000402 [1, 2, 3, 4] [] 0 [])] with response := some (.error .invalidAddress) },
    _, ?_, by simp, rfl, by simp [State.respond]⟩
  intro r h
  cases h
  exact ⟨fun _ => ⟨rfl, rfl⟩, Or.inl rfl, Or.inl rfl, by decide, fun j _ => by simp [Response.error, bytesOut],
    fun j _ => by simp [Response.error, textOut]⟩
/-- A run of legal commands (SHR, AND with a length of 8, PARSE) and an illegal word. -/
def sampleRun : List Command :=
  [presented 0x00000404 [1, 2, 3, 4] [] 8 [], presented 0x00040805 x16 [255, 255, 255, 0] 0 [],
    presented 0x00020601 [] [] 0 [0x3A, 0x3A], .idle]

theorem witness_RunAnswersEachCommandAlone :
    (hosted .default (sampleRun.map .issue)).host = sampleRun.map .issue ∧
    ∀ c ∈ sampleRun, ∀ i, decode c.cmd = .ok i → i.wellFormed .default := by
  have d : sampleRun.map (fun c => decode c.cmd) =
      [.ok (.shr 4), .ok (.and 8 4), .ok (.parse 6 2), .error .noSuchOpcode] := rfl
  refine ⟨rfl, fun c hc i h => ?_⟩
  have m : decode c.cmd ∈ sampleRun.map (fun c => decode c.cmd) := List.mem_map_of_mem hc
  rw [d, h] at m
  simp only [List.mem_cons, List.not_mem_nil, or_false, Except.ok.injEq, reduceCtorEq] at m
  rcases m with rfl | rfl | rfl <;> decide
/-- An AND marked REFUSED that a reset cuts off does not stop the run (assumption 17). -/
theorem test_refused_command_reset_away :
    ∃ t, step (hosted .default [.issueAborted (presented 0x00040705 [] [] 0 [])]) = .next t ∧ t.response = none := ⟨_, rfl, rfl⟩
theorem witness_AnswerDependsOnUsedInputsOnly :
    (given [1, 2, 3, 4] [5] 6 []).cfg = (given [1, 2, 3, 4, 7] [8] 9 []).cfg ∧
    SameUsedInputs .default (given [1, 2, 3, 4] [5] 6 []).ports (given [1, 2, 3, 4, 7] [8] 9 []).ports (.format 4) :=
  ⟨rfl, by unfold SameUsedInputs; decide⟩
theorem witness_DecodeAndEncodeAgree : decode 0x00FFFF07 = .ok (.or 255 255) := by decide
theorem witness_OpcodeRowsAreDisjoint :
    (Instr.and 0 0).row ∈ opcodeTable ∧ (Instr.and 0 0).row.Spells 0x00FFFF05 ∧ decode 0x00FFFF05 = .ok (.and 255 255) := by decide
theorem witness_ByteOrderConversionsAreInverse : 0 < 4 ∧ 3 < 4 := by decide
theorem witness_StoreGivesBackWhatLoadRead : WholeWords 0 ∧ WholeWords 12 ∧ WholeWords 16 := by decide
theorem witness_AndAnswersWhereAccepted :
    LengthsAccepted (given x16 [] 0 []).cfg.lenRule 16 12 ∧ LengthsAccepted (given x16 [] 0 []).cfg.lenRule 0 4 ∧
    LengthsAccepted (accepted strict x16 [] 0 []).cfg.lenRule 16 4 :=
  ⟨Or.inr ⟨rfl, by decide⟩, Or.inr ⟨rfl, by decide⟩, Or.inl (by decide)⟩
theorem witness_OrAnswersWhereAccepted :
    LengthsAccepted (given x16 [] 0 []).cfg.lenRule 4 0 ∧ LengthsAccepted (given x16 [] 0 []).cfg.lenRule 12 16 ∧
    LengthsAccepted (accepted strict x16 [] 0 []).cfg.lenRule 4 16 :=
  ⟨Or.inr ⟨rfl, by decide⟩, Or.inr ⟨rfl, by decide⟩, Or.inl (by decide)⟩
theorem witness_LengthTestOfAndOr :
    ¬ (ValidLen 3 ∨ ValidLen 5) ∧ ¬ (ValidLen 4 ∧ ValidLen 12) ∧ (ValidLen 4 ∧ ¬ WholeWords 17) ∧
    ((Instr.and 3 5 = .and 3 5) ∧ (Instr.or 4 12 = .or 4 12)) := by decide
theorem witness_AndiAnswersWhereInRange :
    ValidLen 4 ∧ intValue .default (given [] [] 0xFFFFFFFF []).ports.n ≤ 0xFFFFFFFF ∧
    ValidLen 16 ∧ ((16 : Byte) = 4 → intValue .default (given [] [] 0x100000000 []).ports.n ≤ 0xFFFFFFFF) := by decide
theorem witness_OriAnswersWhereInRange :
    ValidLen 4 ∧ intValue .default (given [] [] (-1) []).ports.n ≤ 0xFFFFFFFF ∧
    ValidLen 4 ∧ intValue narrow (accepted narrow [] [] 0x80000000 []).ports.n ≤ 0xFFFFFFFF := by decide
theorem witness_NarrowIntegerReachesTheLastWordOnly :
    (accepted narrow x16 [] (-1) []).cfg.intWidth = .w32 ∧
    (∃ r, answer (exec (.andi 16) (accepted narrow x16 [] (-1) [])) = some r) ∧
    ∃ r, answer (exec (.ori 16) (accepted narrow x16 [] (-1) [])) = some r := ⟨rfl, ⟨_, rfl⟩, ⟨_, rfl⟩⟩
theorem witness_BooleanLaws :
    ValidLen 16 ∧ (given x16 x16 0 []).ports.b = (given x16 x16 0 []).ports.a ∧ (given x16 x16 0 []).ports.n = 0 :=
  ⟨by decide, rfl, rfl⟩
theorem witness_ShiftsAreLogicalOn128Bits :
    ValidLen 16 ∧ intValue .default (given x16 [] 0 []).ports.n = (0 : Nat) ∧
    intValue .default (given x16 [] 127 []).ports.n = (127 : Nat) ∧ ValidLen 4 ∧ intValue .default (given x16 [] 128 []).ports.n = (128 : Nat) := by decide
theorem witness_FourByteShifts :
    intValue .default (given x16 [] 31 []).ports.n = (31 : Nat) ∧ intValue .default (given x16 [] 32 []).ports.n = (32 : Nat) := by decide
theorem witness_ShiftsCompose :
    ∃ s t u : State, ∃ r, t.cfg = s.cfg ∧ u.cfg = s.cfg ∧ intValue s.cfg s.ports.n = (1 : Nat) ∧
      intValue s.cfg t.ports.n = (127 : Nat) ∧ intValue s.cfg u.ports.n = (127 + 1 : Nat) ∧
      answer (exec (.shr 16) s) = some r ∧ t.ports.a = r.r ∧ u.ports.a = s.ports.a :=
  ⟨given x16 [] 1 [], { given [] [] 127 [] with ports := { presented 0 [] [] 127 [] with
      a := (shiftAddress wordRight bitRight 16 (given x16 [] 1 [])) |> answer |>.elim (bytesOut []) (·.r) } },
    given x16 [] 128 [], _, rfl, rfl, by decide, by decide, by decide, rfl, rfl, rfl⟩
theorem witness_ShiftThereAndBackLosesTheEnds :
    ∃ s t : State, ∃ r r', t.cfg = s.cfg ∧ intValue s.cfg s.ports.n = (31 : Nat) ∧ intValue s.cfg t.ports.n = (31 : Nat) ∧
      ValidLen 4 ∧ answer (exec (.shl 4) s) = some r ∧ t.ports.a = r.r ∧ answer (exec (.shr 4) t) = some r' :=
  ⟨given x16 [] 31 [], { given [] [] 31 [] with ports := { presented 0 [] [] 31 [] with
      a := (shiftAddress wordLeft bitLeft 4 (given x16 [] 31 [])) |> answer |>.elim (bytesOut []) (·.r) } },
    _, _, rfl, by decide, by decide, by decide, rfl, rfl, rfl⟩

/-- Two zero groups at the end of eight. -/
def sampleGroups : List (BitVec 16) := [1, 0, 2, 3, 4, 5, 0, 0]

theorem witness_CompressedRunIsTheLongestLeftmost :
    compressedRun sampleGroups = some (6, 2) ∧ compressedRun [1, 0, 1, 0, 1, 0, 1, 0] = none := by decide
theorem witness_FormatAnswersSixteenBytes :
    compressedRun (groups (bytesOut x16)) = none ∧ compressedRun (groups (bytesOut [])) = some (0, 8) := by decide
theorem witness_FormatLengthBounds :
    (∃ r, answer (exec (.format 4) (given [] [] 0 [])) = some r ∧ r.rtlen = 7) ∧
    ∃ r, answer (exec (.format 16) (given [] [] 0 [])) = some r ∧ r.rtlen = 2 := ⟨⟨_, rfl, by decide⟩, ⟨_, rfl, by decide⟩⟩
theorem witness_FormatIsInjective :
    (ValidLen 4 ∧ ∃ r, answer (exec (.format 4) (given [] [] 0 [])) = some r ∧
      answer (exec (.format 4) (given [] [] 1 [])) = some r) ∧
    ValidLen 16 ∧ ∃ r, answer (exec (.format 16) (given x16 [] 0 [])) = some r ∧
      answer (exec (.format 16) (given x16 x16 1 [])) = some r :=
  ⟨⟨by decide, _, rfl, rfl⟩, by decide, _, rfl, rfl⟩

/-- `"0.0.0.0"` is an IPv4 text. -/
theorem zeros_v4Text : V4Text [0x30, 0x2E, 0x30, 0x2E, 0x30, 0x2E, 0x30] [0, 0, 0, 0] :=
  have h : V4Field [0x30] 0 := .zero _ ⟨by decide, by decide⟩
  .fields _ _ _ _ _ _ _ _ h h h h

/-- `"::"` is an IPv6 text. -/
theorem colons_v6Text : V6Text [0x3A, 0x3A] (List.replicate 16 0) :=
  .compressed [] [] [] [] (Or.inr ⟨rfl, rfl⟩) (Or.inr ⟨rfl, rfl⟩) (by decide)

theorem witness_ParseAnswersAddressTexts :
    V4Text ((given [] [] 0 [0x30, 0x2E, 0x30, 0x2E, 0x30, 0x2E, 0x30]).ports.t.toList.take (7 : Byte).toNat) [0, 0, 0, 0] ∧
    V6Text ((given [] [] 0 [0x3A, 0x3A]).ports.t.toList.take (2 : Byte).toNat) (List.replicate 16 0) := by
  have e : (given [] [] 0 [0x30, 0x2E, 0x30, 0x2E, 0x30, 0x2E, 0x30]).ports.t.toList.take (7 : Byte).toNat =
      [0x30, 0x2E, 0x30, 0x2E, 0x30, 0x2E, 0x30] := by decide +kernel
  have e' : (given [] [] 0 [0x3A, 0x3A]).ports.t.toList.take (2 : Byte).toNat = [0x3A, 0x3A] := by decide +kernel
  rw [e, e']
  exact ⟨zeros_v4Text, colons_v6Text⟩

theorem hexGroup_has_character {t : Text} {n : Nat} (h : HexGroup t n) : ∃ c ∈ t, c ≠ 0 := by
  have key : ∀ c v, IsHexDigit c v → c ≠ 0 := by
    rintro c v h rfl
    unfold IsHexDigit IsDigit at h
    have : (0 : Byte).toNat = 0 := rfl
    omega
  cases h with
  | one c _ h => exact ⟨c, by simp, key c _ h⟩
  | more t n c _ _ _ h => exact ⟨c, by simp, key c _ h⟩

theorem groupList_has_character {t : Text} {bs : List Byte} (h : GroupList t bs) : ∃ c ∈ t, c ≠ 0 := by
  cases h with
  | one t _ h => exact hexGroup_has_character h
  | more t u bs _ h _ => obtain ⟨c, hc, h0⟩ := hexGroup_has_character h; exact ⟨c, by simp [hc], h0⟩

theorem v4Text_has_character {t : Text} {bs : List Byte} (h : V4Text t bs) : ∃ c ∈ t, c ≠ 0 := by
  cases h
  exact ⟨0x2E, by simp, by decide⟩

theorem v6Text_has_character {t : Text} {bs : List Byte} (h : V6Text t bs) : ∃ c ∈ t, c ≠ 0 := by
  cases h with
  | compressed l r ls rs => exact ⟨0x3A, by simp, by decide⟩
  | full t bs h =>
    cases h with
    | groups t bs h => exact groupList_has_character h
    | dotted t bs h => exact v4Text_has_character h
    | mixed t u bs qs h _ => obtain ⟨c, hc, h0⟩ := groupList_has_character h; exact ⟨c, by simp [hc], h0⟩

/-- The hypotheses of the four clauses, the text length at 50 and at 49, the text NUL characters. -/
theorem witness_ParseTestsInOrder :
    49 < (50 : Byte).toNat ∧ ((49 : Byte).toNat ≤ 49 ∧ (5 : Byte) ≠ 4 ∧ (5 : Byte) ≠ 6) ∧
    (∀ bs, ¬ V4Text (State.reset.ports.t.toList.take (49 : Byte).toNat) bs) ∧
    ∀ bs, ¬ V6Text (State.reset.ports.t.toList.take (49 : Byte).toNat) bs := by
  have z : ∀ c ∈ State.reset.ports.t.toList.take (49 : Byte).toNat, c = 0 := by
    intro c hc
    have := List.mem_of_mem_take hc
    simp only [State.reset, State.resetWith, Command.idle, Vector.toList_replicate, List.mem_replicate] at this
    exact this.2
  refine ⟨by decide, by decide, fun bs h => ?_, fun bs h => ?_⟩
  · obtain ⟨c, hc, h0⟩ := v4Text_has_character h
    exact h0 (z c hc)
  · obtain ⟨c, hc, h0⟩ := v6Text_has_character h
    exact h0 (z c hc)

/-- The text `"0.0.0.0"` answered by FORMAT and presented to PARSE, and `"::"`. -/
theorem witness_ParseUndoesFormat :
    (∃ r, answer (exec (.format 4) (given [] [] 0 [])) = some r ∧
      (given [] [] 0 [0x30, 0x2E, 0x30, 0x2E, 0x30, 0x2E, 0x30]).ports.t.toList.take r.rtlen.toNat = r.rt.toList.take r.rtlen.toNat) ∧
    ∃ r, answer (exec (.format 16) (given [] [] 0 [])) = some r ∧
      (given [] [] 0 [0x3A, 0x3A]).ports.t.toList.take r.rtlen.toNat = r.rt.toList.take r.rtlen.toNat :=
  ⟨⟨_, rfl, by decide +kernel⟩, ⟨_, rfl, by decide +kernel⟩⟩
theorem witness_UnsupportedFamilyHasOneCause :
    (∃ r, answer (exec (.parse 5 49) State.reset) = some r ∧ r.status = 2) ∧
    ∃ r, answer (exec (.parse 5 50) State.reset) = some r ∧ r.status = 1 := ⟨⟨_, rfl, rfl⟩, ⟨_, rfl, rfl⟩⟩
theorem witness_InvalidAddressCauses :
    (∃ r, answer (exec (.andi 4) (given [] [] 0x100000000 [])) = some r ∧ r.status = 1) ∧
    ∃ r, answer (exec (.andi 4) (given [] [] 0xFFFFFFFF [])) = some r ∧ r.status = 0 :=
  ⟨⟨_, rfl, by decide⟩, ⟨_, rfl, by decide⟩⟩
theorem witness_IllegalCommandHasOneCause :
    (∃ r, responseTo .default .idle = some r ∧ r.status = 3) ∧
    ∃ r, responseTo .default (presented 0x00000003 [] [] 0 []) = some r ∧ r.status = 1 := ⟨⟨_, rfl, rfl⟩, ⟨_, rfl, by decide⟩⟩
theorem witness_FailedPreconditionsAnswerInvalidAddress :
    ¬ ValidLen 0 ∧ ¬ ValidLen 15 ∧ intValue .default (given [] [] (-1) []).ports.n < 0 ∧
    intValue .default (given [] [] 0x100000000 []).ports.n > 0xFFFFFFFF ∧
    (given [] [] 0 []).cfg.lenRule = .literal ∧ (accepted strict [] [] 0 []).cfg.lenRule = .strict ∧ ValidLen 4 ∧ ¬ ValidLen 12 := by decide

end Sys2Proof.Tests
end

/-! SUPPORT. One equation for each thing the host can do to the CORE, what a step that goes on can have been, and the
statements about the state: reset, the parameters and the host's list (`10_state.md`). -/

namespace Sys2Proof.Machine

/-! ### One step, action by action -/

/-- With nothing to do the CORE is idle (`60_exceptions.md` R161). -/
theorem step_idle {s : State} (h : s.host = []) : step s = .next s := by
  rw [step, h]

theorem step_reset {s : State} {rest : List HostAction} (h : s.host = .reset :: rest) :
    step s = .next { s.applyReset with host := rest } := by
  rw [step, h]

theorem step_issueAborted {s : State} {c : Command} {rest : List HostAction} (h : s.host = .issueAborted c :: rest) :
    step s = .next (s.accept c rest).applyReset := by
  rw [step, h]

theorem step_issue_legal {s : State} {c : Command} {rest : List HostAction} {i : Instr}
    (h : s.host = .issue c :: rest) (hd : decode c.cmd = .ok i) : step s = exec i (s.accept c rest) := by
  simp only [step, h, hd]

theorem step_issue_illegal {s : State} {c : Command} {rest : List HostAction} {e : DecodeError}
    (h : s.host = .issue c :: rest) (hd : decode c.cmd = .error e) : step s = .next (s.accept c rest).illegal := by
  simp only [step, h, hd]

/-- Everything a step that goes on can have been. -/
theorem step_next_cases {s t : State} (h : step s = .next t) :
    (s.host = [] ∧ t = s) ∨
    (∃ rest, s.host = .reset :: rest ∧ t = { s.applyReset with host := rest }) ∨
    (∃ c rest, s.host = .issueAborted c :: rest ∧ t = (s.accept c rest).applyReset) ∨
    (∃ c rest e, s.host = .issue c :: rest ∧ decode c.cmd = .error e ∧ t = (s.accept c rest).illegal) ∨
    ∃ c rest i, s.host = .issue c :: rest ∧ decode c.cmd = .ok i ∧ exec i (s.accept c rest) = .next t := by
  match hh : s.host with
  | [] =>
    rw [step_idle hh] at h
    cases h
    exact .inl ⟨rfl, rfl⟩
  | .reset :: rest =>
    rw [step_reset hh] at h
    cases h
    exact .inr (.inl ⟨rest, rfl, rfl⟩)
  | .issueAborted c :: rest =>
    rw [step_issueAborted hh] at h
    cases h
    exact .inr (.inr (.inl ⟨c, rest, rfl, rfl⟩))
  | .issue c :: rest =>
    match hd : decode c.cmd with
    | .error e =>
      rw [step_issue_illegal hh hd] at h
      cases h
      exact .inr (.inr (.inr (.inl ⟨c, rest, e, rfl, hd, rfl⟩)))
    | .ok i =>
      rw [step_issue_legal hh hd] at h
      exact .inr (.inr (.inr (.inr ⟨c, rest, i, rfl, hd, h⟩)))

/-! ### The parameters and the host's list -/

/-- Settles O8: the actions are the cases of `step_next_cases`, and a command that runs keeps both fields by
`exec_frame`. -/
theorem stepKeepsTheParameters : Obligations.StepKeepsTheParameters := by
  intro s t h
  rcases step_next_cases h with ⟨hh, rfl⟩ | ⟨rest, hh, rfl⟩ | ⟨c, rest, hh, rfl⟩ | ⟨c, rest, e, hh, -, rfl⟩ |
    ⟨c, rest, i, hh, -, he⟩
  · simp [hh]
  · simp [hh]
  · simp [hh]
  · simp [hh]
  · obtain ⟨hcfg, hhost, -, -⟩ := exec_frame i _ _ he
    exact ⟨hcfg, by rw [hhost, hh]; rfl⟩

/-- Settles O4: `State.accept` is the record update of the statement. -/
theorem stepRunsTheDecodedCommand : Obligations.StepRunsTheDecodedCommand :=
  fun _ _ _ _ hh hd => step_issue_legal hh hd

/-! ### Reset -/

@[simp] theorem zeroWords_get (i : Nat) (h : i < 4) : zeroWords[i] = 0 := by
  simp [zeroWords]

/-- Settles O1: both resets go through `State.applyReset`, whose fields `Laws/State` gives. -/
theorem resetLeavesTheCoreIdle : Obligations.ResetLeavesTheCoreIdle := by
  refine ⟨fun s rest c hh => ?_, rfl, rfl, rfl, fun i => ⟨zeroWords_get _ i.isLt, zeroWords_get _ i.isLt⟩⟩
  rcases hh with hh | hh
  · exact ⟨_, step_reset hh, by simp⟩
  · exact ⟨_, step_issueAborted hh, by simp⟩

/-- A CORE that shows no response satisfies the invariant. -/
theorem State.inv_of_response_eq_none {s : State} (h : s.response = none) : s.Inv := by
  intro r hr
  rw [h] at hr
  cases hr

/-- Settles O10: after reset no response is valid (`10_state.md` R23). -/
theorem resetResponseIsCanonical : Obligations.ResetResponseIsCanonical :=
  ⟨State.inv_of_response_eq_none rfl, fun _ => State.inv_of_response_eq_none rfl⟩

end Sys2Proof.Machine

/-! SUPPORT. The byte-order converter in both directions, the number a list of bytes stands for, and the statements about
`load`, `store` and the three widths of an address (`20_memory.md`). -/

namespace Sys2Proof.Machine

/-! ### The byte-order converter undoes itself -/

/-- `20_memory.md` R30: a word is put together again from its own four bytes. -/
theorem be32_byteOf (w : Word) : be32 (byteOf 0 w) (byteOf 1 w) (byteOf 2 w) (byteOf 3 w) = w := by
  apply BitVec.eq_of_toNat_eq
  have hw := w.isLt
  simp only [be32_toNat, byteOf_toNat]
  omega

/-- `20_memory.md` R30: byte `k` of a word is the `k`-th byte it was put together from. -/
theorem byteOf_be32 (b : Fin 4 → Byte) (k : Fin 4) : byteOf k.val (be32 (b 0) (b 1) (b 2) (b 3)) = b k := by
  apply BitVec.eq_of_toNat_eq
  have h0 := (b 0).isLt; have h1 := (b 1).isLt; have h2 := (b 2).isLt; have h3 := (b 3).isLt
  rw [byteOf_toNat, be32_toNat]
  match k with
  | 0 => show _ / 2 ^ 24 % 2 ^ 8 = _; omega
  | 1 => show _ / 2 ^ 16 % 2 ^ 8 = _; omega
  | 2 => show _ / 2 ^ 8 % 2 ^ 8 = _; omega
  | 3 => show _ / 2 ^ 0 % 2 ^ 8 = _; omega

/-- Settles O18: `be32` and `byte_k` as numbers, and the two directions of undoing. -/
theorem byteOrderConversionsAreInverse : Obligations.ByteOrderConversionsAreInverse := by
  refine ⟨be32_toNat, fun k w _ => byteOf_toNat k w, be32_byteOf, fun b0 b1 b2 b3 => ?_⟩
  have undo := byteOf_be32 ![b0, b1, b2, b3]
  exact ⟨undo 0, undo 1, undo 2, undo 3⟩

/-! ### `store` after `load` -/

/-- A whole number of words holds a byte exactly when it holds the last byte of that byte's word. -/
theorem lt_wholeWords_iff {len : Byte} (h : WholeWords len) (j : Nat) :
    4 * (j / 4) + 3 < len.toNat ↔ j < len.toNat := by
  rcases h with rfl | rfl | rfl | rfl | rfl <;> simp <;> omega

/-- Settles O19: byte `j` of the result is byte `j mod 4` of word `j div 4`, which `load` read whole. -/
theorem storeGivesBackWhatLoadRead : Obligations.StoreGivesBackWhatLoadRead := by
  intro x len j hlen
  rw [storeBytes_get _ _ _ j.isLt, load_get _ _ _ (by omega), byteWithin]
  simp only [lt_wholeWords_iff hlen]
  split_ifs with hj
  · have undo := byteOf_be32 (fun k => x[4 * (j.val / 4) + k.val]) ⟨j.val % 4, by omega⟩
    simpa [Nat.div_add_mod] using undo
  · rfl

/-! ### Bytes, groups and words as one number -/

/-- Bytes after a number move it up by eight bits each. -/
theorem bigEndian_append (as bs : List Byte) :
    bigEndian (as ++ bs) = bigEndian as * 2 ^ (8 * bs.length) + bigEndian bs := by
  induction bs using List.reverseRecOn with
  | nil => simp [bigEndian]
  | append_singleton bs b ih =>
    have last (cs : List Byte) : bigEndian (cs ++ [b]) = bigEndian cs * 2 ^ 8 + b.toNat := by simp [bigEndian]
    rw [← List.append_assoc, last, last, ih, List.length_append, List.length_singleton, Nat.mul_add_one, pow_add]
    ring

/-- Four bytes as a number are the word `be32` makes of them. -/
theorem bigEndian_four (b0 b1 b2 b3 : Byte) : bigEndian [b0, b1, b2, b3] = (be32 b0 b1 b2 b3).toNat := by
  rw [be32_toNat]
  simp [bigEndian]
  omega

/-- The bytes of a buffer, word by word. -/
theorem toList_eq_words (x : Buffer) :
    x.toList = [x[0], x[1], x[2], x[3]] ++ ([x[4], x[5], x[6], x[7]] ++
      ([x[8], x[9], x[10], x[11]] ++ [x[12], x[13], x[14], x[15]])) := by
  apply List.ext_getElem
  · simp
  · intro i _ hi
    simp only [List.length_append, List.length_cons, List.length_nil] at hi
    interval_cases i <;> simp

/-- A word `load` reads within the length. -/
theorem load_get_of_lt {x : Buffer} {len : Byte} {i : Nat} (hi : i < 4) (h : 4 * i + 3 < len.toNat) :
    (load x len)[i] = be32 x[4 * i] x[4 * i + 1] x[4 * i + 2] x[4 * i + 3] := by
  rw [load_get _ _ _ hi, if_pos h]

/-- `20_memory.md` R44: the working value of a 16-byte address is its bytes read as one number. -/
theorem V128_load_sixteen (x : Buffer) : V128 (load x 16) = bigEndian x.toList := by
  have word (i : Nat) (hi : i < 4) := load_get_of_lt (x := x) (len := 16) hi (show _ < 16 by omega)
  rw [V128, word 0, word 1, word 2, word 3, toList_eq_words]
  simp only [bigEndian_append, bigEndian_four, List.length_append, List.length_cons, List.length_nil]
  ring

/-- `20_memory.md` R44: word 0 of a 4-byte address is its bytes read as one number. -/
theorem load_four_toNat (x : Buffer) : ((load x 4)[0]).toNat = bigEndian (x.toList.take 4) := by
  rw [load_get_of_lt (by decide) (by decide), toList_eq_words]
  exact (bigEndian_four _ _ _ _).symm

theorem groups_length (x : Buffer) : (groups x).length = 8 := by
  simp [groups]

/-- What each group is, as a number (`20_memory.md` R44). -/
theorem groups_getD_toNat (x : Buffer) (i : Nat) (hi : i < 8) :
    ((groups x).getD i 0).toNat = x[2 * i].toNat * 2 ^ 8 + x[2 * i + 1].toNat := by
  have hg : (groups x).getD i 0 = x[2 * i] ++ x[2 * i + 1] := by
    rw [List.getD_eq_getElem _ _ (by rwa [groups_length])]
    exact List.getElem_ofFn _
  rw [hg, BitVec.toNat_append, ← Nat.shiftLeft_add_eq_or_of_lt (BitVec.isLt _), Nat.shiftLeft_eq]

/-- `20_memory.md` R44: a word of a 16-byte address is two groups. -/
theorem load_sixteen_toNat (x : Buffer) (i : Nat) (hi : i < 4) :
    ((load x 16)[i]).toNat = ((groups x).getD (2 * i) 0).toNat * 2 ^ 16 + ((groups x).getD (2 * i + 1) 0).toNat := by
  rw [load_get_of_lt hi (show _ < 16 by omega), be32_toNat, groups_getD_toNat _ _ (by omega),
    groups_getD_toNat _ _ (by omega)]
  simp only [Nat.mul_add, ← Nat.mul_assoc]
  ring

/-- Settles O20: each relation of R44 is a lemma above. -/
theorem oneAddressAtThreeWidths : Obligations.OneAddressAtThreeWidths := fun x =>
  ⟨groups_length x, fun i => groups_getD_toNat x i.val i.isLt, fun i => load_sixteen_toNat x i.val i.isLt,
    V128_load_sixteen x, load_four_toNat x⟩

end Sys2Proof.Machine

/-! SUPPORT. What the decoder accepts, said once: the words the encoder writes, which are those of a row of the opcode table
and not those `30_encoding.md` R58 lists; and the statements about the command word and the inputs a command reads. -/

namespace Sys2Proof

open Machine

/-! ### Decoding and encoding (`30_encoding.md` R61) -/

/-- A command whose `f2` must be zero has one word only. -/
theorem oneLength_eq_ok {i : Byte → Instr} {w : Word} {j : Instr} :
    oneLength i w = .ok j ↔ f2Field w = 0 ∧ i (f1Field w) = j := by
  unfold oneLength
  split_ifs with hf2
  · simp only [hf2, false_and]
  · simp only [Except.ok.injEq, not_not.1 hf2, true_and]

theorem oneLength_commandWord (i : Byte → Instr) (f1 : Byte) (op : BitVec 4) :
    oneLength i (commandWord 0#8 f1 op) = .ok (i f1) :=
  oneLength_eq_ok.2 ⟨f2Field_commandWord .., by rw [f1Field_commandWord]⟩

/-- Each field of a written word reads back as it was written, so the decoder finds the command again. -/
theorem decode_encode (i : Instr) : decode (encode i) = .ok i := by
  cases i <;>
    simp [decode, encode, rsv1Field_commandWord, rsv0Field_commandWord, opField_commandWord, f1Field_commandWord,
      f2Field_commandWord, oneLength_commandWord]

/-- The word of a command is put together again from its fields, its opcode given as a number. -/
theorem commandWord_fields {w : Word} (h1 : rsv1Field w = 0) (h0 : rsv0Field w = 0) {op : BitVec 4}
    (hop : (opField w).toNat = op.toNat) : commandWord (f2Field w) (f1Field w) op = w := by
  rw [← BitVec.eq_of_toNat_eq hop]
  exact (word_eq w h1 h0).symm

/-- A word that decodes to a command with one field is the word the encoder writes for it. -/
theorem encode_of_oneLength {w : Word} (h1 : rsv1Field w = 0) (h0 : rsv0Field w = 0) {k : Byte → Instr} {op : BitVec 4}
    (hk : ∀ l, encode (k l) = commandWord 0 l op) (hop : (opField w).toNat = op.toNat) {i : Instr}
    (h : oneLength k w = .ok i) : encode i = w := by
  obtain ⟨hf2, rfl⟩ := oneLength_eq_ok.1 h
  rw [hk, ← hf2, commandWord_fields h1 h0 hop]

theorem encode_of_decode {w : Word} {i : Instr} (h : decode w = .ok i) : encode i = w := by
  unfold decode at h
  split_ifs at h with hrsv
  push Not at hrsv
  obtain ⟨h1, h0⟩ := hrsv
  split at h
  case h_1 hop => cases h; exact commandWord_fields h1 h0 hop
  case h_2 hop => exact encode_of_oneLength h1 h0 (op := 2) (fun _ => rfl) hop h
  case h_3 hop => exact encode_of_oneLength h1 h0 (op := 3) (fun _ => rfl) hop h
  case h_4 hop => exact encode_of_oneLength h1 h0 (op := 4) (fun _ => rfl) hop h
  case h_5 hop => cases h; exact commandWord_fields h1 h0 hop
  case h_6 hop => exact encode_of_oneLength h1 h0 (op := 6) (fun _ => rfl) hop h
  case h_7 hop => cases h; exact commandWord_fields h1 h0 hop
  case h_8 hop => exact encode_of_oneLength h1 h0 (op := 8) (fun _ => rfl) hop h
  case h_9 => cases h

/-- The decoder accepts the words the encoder writes and no others. -/
theorem decode_eq_ok_iff {w : Word} {i : Instr} : decode w = .ok i ↔ encode i = w :=
  ⟨encode_of_decode, fun h => h ▸ decode_encode i⟩

/-- The encoder writes the table's formula. -/
theorem encode_toNat (i : Instr) : (encode i).toNat = specWord i := by
  cases i <;> simp [encode, specWord, commandWord_toNat]

/-- Settles O14: `decode_eq_ok_iff` says both directions of undoing, and `encode_toNat` gives the word as a number. -/
theorem decodeAndEncodeAgree : Obligations.DecodeAndEncodeAgree := by
  refine ⟨encode_toNat, decode_encode, fun _ _ => encode_of_decode, fun w i => ?_⟩
  rw [decode_eq_ok_iff, ← encode_toNat, BitVec.toNat_inj, eq_comm]

/-- Settles O13: each word is the one the encoder writes for its command. -/
theorem tableWordsDecode : Obligations.TableWordsDecode :=
  ⟨decode_encode (.parse 4 11), decode_encode (.format 16), decode_encode (.shl 16), decode_encode (.shr 4),
    decode_encode (.and 8 4), decode_encode (.andi 4), decode_encode (.or 4 12), decode_encode (.ori 16)⟩

/-! ### The rows of the opcode table (`30_encoding.md` R52) -/

theorem row_mem_opcodeTable (i : Instr) : i.row ∈ opcodeTable := by
  cases i <;> simp [opcodeTable, Instr.row]

theorem row_spells_encode : ∀ i : Instr, i.row.Spells (encode i)
  | .parse family tlen => Laws.EncodesItsRow.parse family tlen
  | .format lenA => Laws.EncodesItsRow.format lenA
  | .shl lenA => Laws.EncodesItsRow.shl lenA
  | .shr lenA => Laws.EncodesItsRow.shr lenA
  | .and lenA lenB => Laws.EncodesItsRow.and lenA lenB
  | .andi lenA => Laws.EncodesItsRow.andi lenA
  | .or lenA lenB => Laws.EncodesItsRow.or lenA lenB
  | .ori lenA => Laws.EncodesItsRow.ori lenA

theorem rsv1Field_eq_zero_iff {w : Word} : rsv1Field w = 0 ↔ w.toNat / 2 ^ 24 = 0 := by
  rw [← BitVec.toNat_inj, rsv1Field_toNat]
  rfl

theorem rsv0Field_eq_zero_iff {w : Word} : rsv0Field w = 0 ↔ w.toNat / 2 ^ 4 % 16 = 0 := by
  rw [← BitVec.toNat_inj, rsv0Field_toNat]
  rfl

theorem f2Field_eq_zero_iff {w : Word} : f2Field w = 0 ↔ w.toNat / 2 ^ 16 % 256 = 0 := by
  rw [← BitVec.toNat_inj, f2Field_toNat]
  rfl

/-- A row that fixes the reserved fields and the opcode leaves a word only the two fields between. -/
theorem commandWord_of_spells_two_fields {r : OpcodeRow} {w : Word} {op : BitVec 4} (hm : r.mask = 0xFF0000FF)
    (hb : r.bits.toNat = op.toNat) (h : r.Spells w) : commandWord (f2Field w) (f1Field w) op = w := by
  rw [spells_two_fields _ _ hm, hb] at h
  have := op.isLt
  have h1 : rsv1Field w = 0 := rsv1Field_eq_zero_iff.2 (by omega)
  have h0 : rsv0Field w = 0 := rsv0Field_eq_zero_iff.2 (by omega)
  exact commandWord_fields h1 h0 (by rw [opField_toNat]; omega)

/-- A row with one field fixes the second field too. -/
theorem commandWord_of_spells_one_field {r : OpcodeRow} {w : Word} {op : BitVec 4} (hm : r.mask = 0xFFFF00FF)
    (hb : r.bits.toNat = op.toNat) (h : r.Spells w) : commandWord 0 (f1Field w) op = w := by
  rw [spells_one_field _ _ hm, hb] at h
  have := op.isLt
  have h1 : rsv1Field w = 0 := rsv1Field_eq_zero_iff.2 (by omega)
  have h0 : rsv0Field w = 0 := rsv0Field_eq_zero_iff.2 (by omega)
  have hf2 : f2Field w = 0 := f2Field_eq_zero_iff.2 (by omega)
  rw [← hf2]
  exact commandWord_fields h1 h0 (by rw [opField_toNat]; omega)

/-- A word a row of the table spells is the word of a command of that row. -/
theorem exists_encode_of_spells {w : Word} {row : OpcodeRow} (hrow : row ∈ opcodeTable) (h : row.Spells w) :
    ∃ i, encode i = w ∧ i.row = row := by
  simp only [opcodeTable, List.mem_cons, List.not_mem_nil, or_false] at hrow
  rcases hrow with rfl | rfl | rfl | rfl | rfl | rfl | rfl | rfl
  · exact ⟨.parse (f1Field w) (f2Field w), commandWord_of_spells_two_fields rfl rfl h, rfl⟩
  · exact ⟨.format (f1Field w), commandWord_of_spells_one_field rfl rfl h, rfl⟩
  · exact ⟨.shl (f1Field w), commandWord_of_spells_one_field rfl rfl h, rfl⟩
  · exact ⟨.shr (f1Field w), commandWord_of_spells_one_field rfl rfl h, rfl⟩
  · exact ⟨.and (f1Field w) (f2Field w), commandWord_of_spells_two_fields rfl rfl h, rfl⟩
  · exact ⟨.andi (f1Field w), commandWord_of_spells_one_field rfl rfl h, rfl⟩
  · exact ⟨.or (f1Field w) (f2Field w), commandWord_of_spells_two_fields rfl rfl h, rfl⟩
  · exact ⟨.ori (f1Field w), commandWord_of_spells_one_field rfl rfl h, rfl⟩

/-- The low byte of a word a row of the table spells is the row's `match`: every mask keeps the low byte, and no `match`
goes beyond it. -/
theorem bits_of_spells {w : Word} {row : OpcodeRow} (hrow : row ∈ opcodeTable) (h : row.Spells w) :
    row.bits = w &&& 0xFF := by
  have table : ∀ row ∈ opcodeTable, row.bits &&& 0xFF = row.bits ∧ row.mask &&& 0xFF = 0xFF := by decide
  obtain ⟨hbits, hmask⟩ := table row hrow
  rw [← hbits, ← h, BitVec.and_assoc, hmask]

/-- Settles O16: two rows that spell one word have the same `match`, the word's low byte; decoding follows the row by
`decode_eq_ok_iff`. -/
theorem opcodeRowsAreDisjoint : Obligations.OpcodeRowsAreDisjoint := by
  refine ⟨fun w row hrow row' hrow' h h' => ?_, fun w i h => ?_, fun w row hrow h => ?_⟩
  · have distinct : ∀ row ∈ opcodeTable, ∀ row' ∈ opcodeTable, row.bits = row'.bits → row = row' := by decide
    exact distinct row hrow row' hrow' ((bits_of_spells hrow h).trans (bits_of_spells hrow' h').symm)
  · exact ⟨row_mem_opcodeTable i, encode_of_decode h ▸ row_spells_encode i⟩
  · obtain ⟨i, hw, hi⟩ := exists_encode_of_spells hrow h
    exact ⟨i, decode_eq_ok_iff.2 hw, hi⟩

/-! ### Illegal words (`30_encoding.md` R58) -/

/-- A word decodes exactly when a row of the table spells it. -/
theorem exists_decode_ok_iff_spells {w : Word} : (∃ i, decode w = .ok i) ↔ ∃ row ∈ opcodeTable, row.Spells w := by
  obtain ⟨-, rowOf, decodes⟩ := opcodeRowsAreDisjoint
  constructor
  · rintro ⟨i, h⟩
    exact ⟨i.row, rowOf w i h⟩
  · rintro ⟨row, hrow, h⟩
    obtain ⟨i, hi, -⟩ := decodes w row hrow h
    exact ⟨i, hi⟩

theorem exists_decode_error_iff {w : Word} : (∃ e, decode w = .error e) ↔ ¬ ∃ i, decode w = .ok i := by
  cases decode w <;> simp

/-- A row fixes the high bits and the low byte of a word as a number; R58 lists the numbers no row fixes. -/
theorem illegalWord_iff_not_spells {w : Word} : IllegalWord w ↔ ∀ row ∈ opcodeTable, ¬ row.Spells w := by
  simp only [opcodeTable, List.forall_mem_cons, Instr.row, spells_two_fields ⟨_, 0xFF0000FF⟩ w rfl,
    spells_one_field ⟨_, 0xFFFF00FF⟩ w rfl, IllegalWord]
  simp only [BitVec.ofNat_eq_ofNat, BitVec.toNat_ofNat, Nat.reducePow, Nat.reduceMod, List.not_mem_nil,
    IsEmpty.forall_iff, implies_true, and_true]
  omega

theorem exists_decode_error_iff_illegalWord {w : Word} : (∃ e, decode w = .error e) ↔ IllegalWord w := by
  rw [exists_decode_error_iff, exists_decode_ok_iff_spells, illegalWord_iff_not_spells]
  push Not
  rfl

/-- Settles O15: the words of R58 and the words of no row are the same, and these the decoder refuses. -/
theorem decoderRefusesExactlyTheIllegalWords : Obligations.DecoderRefusesExactlyTheIllegalWords :=
  fun _ => ⟨exists_decode_error_iff_illegalWord, illegalWord_iff_not_spells⟩

/-! ### How many words are legal -/

/-- The commands by their fields: three commands with two fields and five with one (`30_encoding.md` R51). -/
def Instr.fields : Instr ≃ (Fin 3 × Byte × Byte) ⊕ (Fin 5 × Byte) where
  toFun
    | .parse family tlen => .inl (0, family, tlen)
    | .and lenA lenB => .inl (1, lenA, lenB)
    | .or lenA lenB => .inl (2, lenA, lenB)
    | .format lenA => .inr (0, lenA)
    | .shl lenA => .inr (1, lenA)
    | .shr lenA => .inr (2, lenA)
    | .andi lenA => .inr (3, lenA)
    | .ori lenA => .inr (4, lenA)
  invFun
    | .inl (0, family, tlen) => .parse family tlen
    | .inl (1, lenA, lenB) => .and lenA lenB
    | .inl (2, lenA, lenB) => .or lenA lenB
    | .inr (0, lenA) => .format lenA
    | .inr (1, lenA) => .shl lenA
    | .inr (2, lenA) => .shr lenA
    | .inr (3, lenA) => .andi lenA
    | .inr (4, lenA) => .ori lenA
  left_inv i := by cases i <;> rfl
  right_inv := by rintro (⟨k, _⟩ | ⟨k, _⟩) <;> fin_cases k <;> rfl

theorem card_byte : Nat.card Byte = 2 ^ 8 := by
  rw [Nat.card_congr BitVec.equivFin.toEquiv, Nat.card_fin]

theorem card_instr : Nat.card Instr = 3 * 2 ^ 16 + 5 * 2 ^ 8 := by
  have : Finite Byte := .of_equiv _ BitVec.equivFin.toEquiv.symm
  rw [Nat.card_congr Instr.fields, Nat.card_sum]
  simp only [Nat.card_prod, Nat.card_fin, card_byte, ← pow_add]

/-- No two commands have the same word. -/
theorem encode_injective : Function.Injective encode := fun i _ h =>
  Except.ok.inj ((decode_encode i).symm.trans (decode_eq_ok_iff.2 h.symm))

/-- Settles O17: the legal words are those the encoder writes, one for each command. -/
theorem legalWordCount : Obligations.LegalWordCount := by
  have legal : {w : Word | ∃ i, decode w = .ok i} = Set.range encode := by
    ext w
    simp only [Set.mem_ofPred_eq, decode_eq_ok_iff, Set.mem_range]
  rw [Obligations.LegalWordCount, legal, Set.ncard_range_of_injective encode_injective, card_instr]
  norm_num

end Sys2Proof

namespace Sys2Proof.Machine

/-- The answer to an illegal word as a whole state. -/
theorem State.illegal_eq (s : State) : s.illegal = { s with
    w := Vector.replicate 4 0, v := Vector.replicate 4 0, c := 0,
    response := some ⟨3, 0, Vector.replicate 16 0, 0, Vector.replicate 49 0⟩ } := by
  rw [State.illegal, State.raise, error_eq]
  rfl

/-- Settles O5: the decoder refuses the word, and the step answers `State.illegal`. -/
theorem illegalWordIsAnswered : Obligations.IllegalWordIsAnswered := by
  intro s c rest hh hw
  obtain ⟨e, hd⟩ := exists_decode_error_iff_illegalWord.2 hw
  rw [step_issue_illegal hh hd, State.illegal_eq]
  rfl

/-! ### The inputs a command reads (`30_encoding.md` R57) -/

/-- The second operand of ANDI and ORI depends on the value of the integer only. -/
theorem integerOperand_congr {cfg : Config} {m n : BitVec 64} (lenA : Byte) (h : intValue cfg m = intValue cfg n) :
    integerOperand cfg lenA m = integerOperand cfg lenA n := by
  unfold intValue at h
  unfold integerOperand intHigh intLow
  cases hw : cfg.intWidth <;> simp only [hw] at h ⊢
  case w32 => simp only [BitVec.eq_of_toInt_eq h]
  case w64 => simp only [BitVec.eq_of_toInt_eq h]

/-- Sixteen declared bytes are the whole port. -/
theorem eq_of_declared_sixteen {x y : Buffer} (h : declared x 16 = declared y 16) : x = y := by
  have all (z : Buffer) : declared z 16 = z.toList := List.take_of_length_le (by simp)
  rw [all, all] at h
  exact Vector.toList_inj.1 h

section

variable {s t : State} (hcfg : s.cfg = t.cfg)

include hcfg

theorem answer_combineAddresses_congr (f : Word → Word → Word) {lenA lenB : Byte}
    (ha : declared s.ports.a lenA = declared t.ports.a lenA) (hb : declared s.ports.b lenB = declared t.ports.b lenB) :
    answer (combineAddresses f lenA lenB s) = answer (combineAddresses f lenA lenB t) := by
  rw [answer_combineAddresses, answer_combineAddresses, hcfg, load_congr _ _ _ ha, load_congr _ _ _ hb]

theorem answer_combineInteger_congr (f : Word → Word → Word) {lenA : Byte}
    (ha : declared s.ports.a lenA = declared t.ports.a lenA)
    (hn : intValue s.cfg s.ports.n = intValue s.cfg t.ports.n) :
    answer (combineInteger f lenA s) = answer (combineInteger f lenA t) := by
  rw [hcfg] at hn
  simp only [answer_combineInteger, IntegerInvalid, hcfg, hn, load_congr _ _ _ ha, integerOperand_congr lenA hn]

theorem answer_shiftAddress_congr (wordStep : Words → Nat → Words) (bitStep : Words → BitVec 5 → Words) {lenA : Byte}
    (ha : declared s.ports.a lenA = declared t.ports.a lenA)
    (hn : intValue s.cfg s.ports.n = intValue s.cfg t.ports.n) :
    answer (shiftAddress wordStep bitStep lenA s) = answer (shiftAddress wordStep bitStep lenA t) := by
  rw [hcfg] at hn
  simp only [answer_shiftAddress, shift_w, ShiftInvalid, shiftCount, hcfg, hn, load_congr _ _ _ ha]
  congr

end

theorem answer_execFormat_congr {s t : State} {lenA : Byte} (ha : declared s.ports.a lenA = declared t.ports.a lenA) :
    answer (execFormat lenA s) = answer (execFormat lenA t) := by
  rw [answer_execFormat, answer_execFormat]
  by_cases hlen : ValidLen lenA
  · rcases hlen with rfl | rfl
    · rw [show s.ports.a.toList.take 4 = t.ports.a.toList.take 4 from ha]
      simp
    · rw [eq_of_declared_sixteen ha]
  · simp only [hlen, not_false_eq_true, if_true]

theorem answer_execParse_congr {s t : State} (family : Byte) {tlen : Byte}
    (ht : tlen.toNat ≤ textMax → s.ports.text tlen = t.ports.text tlen) :
    answer (execParse family tlen s) = answer (execParse family tlen t) := by
  rw [answer_execParse, answer_execParse]
  split_ifs with hlen
  · rfl
  · rw [ht (Nat.le_of_not_lt hlen)]

/-- Settles O12: each command's answer is a function of the inputs `SameUsedInputs` names, by the lemma of its body. -/
theorem answerDependsOnUsedInputsOnly : Obligations.AnswerDependsOnUsedInputsOnly := by
  intro i s t hcfg hin
  cases i with
  | parse family tlen => exact answer_execParse_congr family hin
  | format lenA => exact answer_execFormat_congr hin
  | shl lenA => obtain ⟨ha, hn⟩ := hin; exact answer_shiftAddress_congr hcfg _ _ ha hn
  | shr lenA => obtain ⟨ha, hn⟩ := hin; exact answer_shiftAddress_congr hcfg _ _ ha hn
  | and lenA lenB => obtain ⟨ha, hb⟩ := hin; exact answer_combineAddresses_congr hcfg _ ha hb
  | andi lenA => obtain ⟨ha, hn⟩ := hin; exact answer_combineInteger_congr hcfg _ ha hn
  | or lenA lenB => obtain ⟨ha, hb⟩ := hin; exact answer_combineAddresses_congr hcfg _ ha hb
  | ori lenA => obtain ⟨ha, hn⟩ := hin; exact answer_combineInteger_congr hcfg _ ha hn

end Sys2Proof.Machine

/-! SUPPORT. What AND, OR, ANDI and ORI answer, byte by byte, and the statements about them and about the commands that
stop the model (`41_boolean.md`). -/

namespace Sys2Proof.Machine

/-! ### The length test of AND and OR (`41_boolean.md` R71) -/

/-- AND and OR are one body with an operation on words in it. -/
theorem exists_exec_eq_combineAddresses {i : Instr} {lenA lenB : Byte} (hi : i = .and lenA lenB ∨ i = .or lenA lenB) :
    ∃ f, ∀ s, exec i s = combineAddresses f lenA lenB s := by
  rcases hi with rfl | rfl
  · exact ⟨(· &&& ·), fun _ => rfl⟩
  · exact ⟨(· ||| ·), fun _ => rfl⟩

/-- `check_two` with its two rejecting lines as one. -/
theorem checkTwo_eq (rule : LenRule) (lenA lenB : Byte) : checkTwo rule lenA lenB =
    if (rule = .literal ∧ ¬ (ValidLen lenA ∨ ValidLen lenB)) ∨ (rule = .strict ∧ ¬ (ValidLen lenA ∧ ValidLen lenB)) then
      .invalid
    else if ¬ WholeWords lenA ∨ ¬ WholeWords lenB then .undefinedResult
    else .accepted := by
  rw [checkTwo, ← ite_or]

/-- Settles O23: the branches of the statement are the verdicts of `check_two`, and each verdict has one way to end. -/
theorem lengthTestOfAndOr : Obligations.LengthTestOfAndOr := by
  intro s lenA lenB i hi
  obtain ⟨f, hexec⟩ := exists_exec_eq_combineAddresses hi
  rw [hexec, combineAddresses_eq, checkTwo_eq]
  split_ifs
  · exact ⟨_, _, rfl, rfl, rfl⟩
  · rfl
  · exact ⟨_, _, rfl, rfl, rfl⟩

/-- A step that refuses ran a command, and the command refused. -/
theorem step_refused_cases {s : State} {r : Refusal} (h : step s = .refused r) :
    ∃ c rest i, s.host = .issue c :: rest ∧ decode c.cmd = .ok i ∧ exec i (s.accept c rest) = .refused r := by
  match hh : s.host with
  | [] => rw [step_idle hh] at h; cases h
  | .reset :: rest => rw [step_reset hh] at h; cases h
  | .issueAborted c :: rest => rw [step_issueAborted hh] at h; cases h
  | .issue c :: rest =>
    match hd : decode c.cmd with
    | .error e => rw [step_issue_illegal hh hd] at h; cases h
    | .ok i => rw [step_issue_legal hh hd] at h; exact ⟨c, rest, i, rfl, hd, h⟩

/-- Settles O7: there is no fault to give, and a refusal is that of a command whose lengths `check_two` leaves
undefined. -/
theorem onlyUndefinedLengthsStopTheCore : Obligations.OnlyUndefinedLengthsStopTheCore := by
  refine ⟨fun _ fault => (nomatch fault), fun s r h => ?_⟩
  obtain ⟨c, rest, i, hh, hd, he⟩ := step_refused_cases h
  obtain ⟨lenA, lenB, hi, hcheck, hr⟩ := exec_refused i _ r he
  obtain ⟨hrule, hlen⟩ := undefined_iff.1 hcheck
  exact ⟨c, rest, lenA, lenB, hh, hd ▸ hi.imp (congrArg _) (congrArg _), hrule, hr, hlen⟩

/-! ### The common bodies as a whole next state -/

/-- What the CORE holds once two operands are combined and stored. -/
theorem store_combine_eq (f : Word → Word → Word) (s : State) (w v : Words) (lenA : Byte) :
    (((s.begin.setW w).setV v).combine f).store lenA = { s with
      w := Vector.zipWith f w v, v := v, c := 0,
      response := some ⟨0, lenA, storeBytes (Vector.zipWith f w v) lenA, 0, Vector.replicate 49 0⟩ } := by
  rw [combine_eq, State.store, Response.bytes, textOut_nil]
  rfl

theorem combineAddresses_of_accepted (f : Word → Word → Word) {s : State} {lenA lenB : Byte}
    (h : LengthsAccepted s.cfg.lenRule lenA lenB) :
    combineAddresses f lenA lenB s = .next { s with
      w := Vector.zipWith f (load s.ports.a lenA) (load s.ports.b lenB), v := load s.ports.b lenB, c := 0,
      response := some ⟨0, lenA, storeBytes (Vector.zipWith f (load s.ports.a lenA) (load s.ports.b lenB)) lenA, 0,
        Vector.replicate 49 0⟩ } := by
  rw [combineAddresses_eq, checkTwo_accepted.2 h, ← store_combine_eq]

theorem combineInteger_of_inRange (f : Word → Word → Word) {s : State} {lenA : Byte} (hlen : ValidLen lenA)
    (hn : lenA = 4 → intValue s.cfg s.ports.n ≤ 0xFFFFFFFF) :
    combineInteger f lenA s = .next { s with
      w := Vector.zipWith f (load s.ports.a lenA) (integerOperand s.cfg lenA s.ports.n),
      v := integerOperand s.cfg lenA s.ports.n, c := 0,
      response := some ⟨0, lenA,
        storeBytes (Vector.zipWith f (load s.ports.a lenA) (integerOperand s.cfg lenA s.ports.n)) lenA, 0,
        Vector.replicate 49 0⟩ } := by
  have valid : ¬ IntegerInvalid s.cfg lenA s.ports.n := by
    rintro (hbad | ⟨h4, hbig⟩)
    · exact hbad hlen
    · exact absurd (hn h4) (by omega)
  rw [combineInteger_eq, if_neg valid, ← store_combine_eq]

/-! ### The result byte by byte -/

/-- An operation on words that acts on each byte by itself. -/
def BytewiseAs (f : Word → Word → Word) (g : Byte → Byte → Byte) : Prop :=
  ∀ k a b, byteOf k (f a b) = g (byteOf k a) (byteOf k b)

theorem bytewiseAs_and : BytewiseAs (· &&& ·) (· &&& ·) := byteOf_and

theorem bytewiseAs_or : BytewiseAs (· ||| ·) (· ||| ·) := byteOf_or

/-- Within the declared length a byte counts as itself. -/
theorem byteWithin_of_lt {x : Buffer} {len : Byte} {j : Fin 16} (h : j.val < len.toNat) : byteWithin x len j = x[j.val] :=
  if_pos h

/-- A loaded buffer, byte by byte: its declared bytes, and zero beyond them. -/
theorem byteOf_load {x : Buffer} {len : Byte} (h : WholeWords len) (j : Fin 16) :
    byteOf (j.val % 4) (load x len)[j.val / 4] = byteWithin x len j := by
  by_cases hj : j.val < len.toNat
  · have stored := storeGivesBackWhatLoadRead x len j h
    rwa [storeBytes_get _ _ _ j.isLt, if_pos hj] at stored
  · rw [byteWithin_eq_zero x len j hj, load_get _ _ _ (by omega), if_neg (by rwa [lt_wholeWords_iff h])]
    exact byteOf_zero _

/-- The stored result when the first operand is an address: its declared bytes, each combined with the byte of the second
operand in the same place. -/
theorem storeBytes_zipWith_load {f : Word → Word → Word} {g : Byte → Byte → Byte} (hf : BytewiseAs f g) {x : Buffer}
    {len : Byte} (h : WholeWords len) (v : Words) (j : Fin 16) :
    (storeBytes (Vector.zipWith f (load x len) v) len)[j.val] =
      if j.val < len.toNat then g x[j.val] (byteOf (j.val % 4) v[j.val / 4]) else 0 := by
  rw [store_combine f g hf, byteOf_load h, byteWithin]
  split_ifs <;> rfl

/-! ### AND and OR (`41_boolean.md` R72, R73, R74) -/

/-- Settles O21: beyond the first length the AND with the zero byte is zero as well. -/
theorem andAnswersWhereAccepted : Obligations.AndAnswersWhereAccepted := by
  intro s lenA lenB h
  obtain ⟨hA, hB⟩ := accepted_whole h
  refine ⟨_, fun j => ?_, combineAddresses_of_accepted _ h⟩
  rw [storeBytes_zipWith_load bytewiseAs_and hA, byteOf_load hB]
  split_ifs with hj
  · rw [byteWithin_of_lt hj]
  · rw [byteWithin_eq_zero _ _ _ hj]
    exact BitVec.zero_and.symm

/-- Settles O22: beyond the first length nothing is stored. -/
theorem orAnswersWhereAccepted : Obligations.OrAnswersWhereAccepted := by
  intro s lenA lenB h
  obtain ⟨hA, hB⟩ := accepted_whole h
  refine ⟨_, fun j => ?_, combineAddresses_of_accepted _ h⟩
  rw [storeBytes_zipWith_load bytewiseAs_or hA, byteOf_load hB]

/-! ### The integer as an operand (`41_boolean.md` R75) -/

/-- The two's complement of a signed value is the word it was read from. -/
theorem toNat_toInt_emod_two_pow {w : Nat} (x : BitVec w) : (x.toInt % 2 ^ w).toNat = x.toNat := by
  have back := BitVec.toNat_ofInt (n := w) x.toInt
  rw [BitVec.ofInt_toInt] at back
  exact_mod_cast back.symm

/-- The bit pattern of the integer is its high half, then its low half. -/
theorem integerPattern_eq (cfg : Config) (n : BitVec 64) :
    integerPattern cfg n = (intHigh cfg n).toNat * 2 ^ 32 + (intLow n).toNat := by
  unfold integerPattern intValue intBits intHigh intLow
  cases cfg.intWidth with
  | w32 =>
    rw [toNat_toInt_emod_two_pow]
    simp
  | w64 =>
    rw [toNat_toInt_emod_two_pow]
    simp only [BitVec.extractLsb'_toNat, BitVec.toNat_setWidth, Nat.shiftRight_eq_div_pow]
    omega

/-- `V128` of the second operand: on 4 bytes the low half alone, in the first word. -/
theorem V128_integerOperand (cfg : Config) (lenA : Byte) (n : BitVec 64) :
    V128 (integerOperand cfg lenA n) =
      if lenA = 4 then integerPattern cfg n % 2 ^ 32 * 2 ^ 96 else integerPattern cfg n := by
  have hlow := (intLow n).isLt
  rw [integerPattern_eq, integerOperand]
  split_ifs
  · show (intLow n).toNat * 2 ^ 96 + 0 * 2 ^ 64 + 0 * 2 ^ 32 + 0 = _
    omega
  · show 0 * 2 ^ 96 + 0 * 2 ^ 64 + (intHigh cfg n).toNat * 2 ^ 32 + (intLow n).toNat = _
    omega

/-- The bytes of a working value are those of its number. -/
theorem byteOf_eq_byteOfNumber (w : Words) (j : Fin 16) :
    byteOf (j.val % 4) w[j.val / 4] = byteOfNumber 16 j.val (V128 w) := by
  apply BitVec.eq_of_toNat_eq
  have h0 := w[0].isLt; have h1 := w[1].isLt; have h2 := w[2].isLt; have h3 := w[3].isLt
  rw [byteOf_toNat, byteOfNumber, BitVec.toNat_ofNat, V128]
  obtain ⟨j, hj⟩ := j
  interval_cases j <;> simp <;> omega

/-- Four bytes of a number stand first in the 128-bit number that has them in its first word. -/
theorem byteOfNumber_sixteen_first_word (v : Nat) {j : Nat} (hj : j < 4) :
    byteOfNumber 16 j (v % 2 ^ 32 * 2 ^ 96) = byteOfNumber 4 j v := by
  apply BitVec.eq_of_toNat_eq
  rw [byteOfNumber, byteOfNumber, BitVec.toNat_ofNat, BitVec.toNat_ofNat]
  interval_cases j <;> omega

/-- The second operand byte by byte: the integer's pattern, lined up with the last bytes of the address. -/
theorem byteOf_integerOperand (cfg : Config) {lenA : Byte} (hlen : ValidLen lenA) (n : BitVec 64) (j : Fin 16)
    (hj : j.val < lenA.toNat) :
    byteOf (j.val % 4) (integerOperand cfg lenA n)[j.val / 4] =
      byteOfNumber lenA.toNat j.val (integerPattern cfg n) := by
  rw [byteOf_eq_byteOfNumber, V128_integerOperand]
  rcases hlen with rfl | rfl
  · exact byteOfNumber_sixteen_first_word _ hj
  · rfl

/-! ### ANDI and ORI (`41_boolean.md` R76, R77) -/

/-- The result of ANDI and ORI byte by byte. -/
theorem storeBytes_zipWith_integerOperand {f : Word → Word → Word} {g : Byte → Byte → Byte} (hf : BytewiseAs f g)
    (cfg : Config) (x : Buffer) (n : BitVec 64) {lenA : Byte} (hlen : ValidLen lenA) (j : Fin 16) :
    (storeBytes (Vector.zipWith f (load x lenA) (integerOperand cfg lenA n)) lenA)[j.val] =
      if j.val < lenA.toNat then g x[j.val] (byteOfNumber lenA.toNat j.val (integerPattern cfg n)) else 0 := by
  rw [storeBytes_zipWith_load hf (valid_whole hlen)]
  split_ifs with hj
  · rw [byteOf_integerOperand cfg hlen n j hj]
  · rfl

/-- Settles O24: the operand, its bytes and the whole next state are lemmas above, taken at AND. -/
theorem andiAnswersWhereInRange : Obligations.AndiAnswersWhereInRange := fun s _ hlen hn =>
  ⟨_, _, storeBytes_zipWith_integerOperand bytewiseAs_and s.cfg s.ports.a s.ports.n hlen, V128_integerOperand _ _ _,
    combineInteger_of_inRange _ hlen hn⟩

/-- Settles O25: the same lemmas at OR. -/
theorem oriAnswersWhereInRange : Obligations.OriAnswersWhereInRange := fun s _ hlen hn =>
  ⟨_, _, storeBytes_zipWith_integerOperand bytewiseAs_or s.cfg s.ports.a s.ports.n hlen, V128_integerOperand _ _ _,
    combineInteger_of_inRange _ hlen hn⟩

/-! ### `INT_W = 32` (`41_boolean.md` R79) -/

/-- With `INT_W = 32` the pattern of the integer is at most one word. -/
theorem integerPattern_lt_of_narrow {cfg : Config} (h : cfg.intWidth = .w32) (n : BitVec 64) :
    integerPattern cfg n < 2 ^ 32 := by
  have hlow := (intLow n).isLt
  rw [integerPattern_eq, intHigh, h]
  simpa using hlow

/-- A number of one word has zero bytes before its last four. -/
theorem byteOfNumber_sixteen_eq_zero {v j : Nat} (hv : v < 2 ^ 32) (hj : j < 12) : byteOfNumber 16 j v = 0 := by
  have hpow : 2 ^ 32 ≤ 2 ^ (8 * (16 - 1 - j)) := Nat.pow_le_pow_right (by decide) (by omega)
  rw [byteOfNumber, Nat.div_eq_of_lt (by omega)]
  rfl

/-- With `INT_W = 32` lines 63..32 of the port are not part of the integer (assumption 4). -/
theorem intValue_append_of_narrow {cfg : Config} (h : cfg.intWidth = .w32) (hi : Word) (n : BitVec 64) :
    intValue cfg (hi ++ n.setWidth 32) = intValue cfg n := by
  simp only [intValue, h, BitVec.setWidth_append_eq_right]

/-- With `INT_W = 32` the first twelve bytes of an answer are combined with zero. -/
theorem byte_of_answer_combineInteger_narrow {f : Word → Word → Word} {g : Byte → Byte → Byte} (hf : BytewiseAs f g)
    {s : State} (h : s.cfg.intWidth = .w32) (j : Fin 12) {r : Response}
    (hr : answer (combineInteger f 16 s) = some r) : r.r[j.val] = g s.ports.a[j.val] 0 := by
  rw [combineInteger_of_inRange f (.inr rfl) fun h4 => absurd h4 (by decide)] at hr
  cases hr
  have byte := storeBytes_zipWith_integerOperand hf s.cfg s.ports.a s.ports.n (lenA := 16) (.inr rfl) (j.castLE (by decide))
  have inside : j.val < (16 : Byte).toNat := Nat.lt_trans j.isLt (by decide)
  have zero := byteOfNumber_sixteen_eq_zero (integerPattern_lt_of_narrow h s.ports.n) j.isLt
  exact byte.trans ((if_pos inside).trans (congrArg (g _) zero))

/-- Settles O26: bytes 0..11 are combined with zero, and an answer depends on the value of the integer only. -/
theorem narrowIntegerReachesTheLastWordOnly : Obligations.NarrowIntegerReachesTheLastWordOnly := by
  intro s hi j hw
  have value := intValue_append_of_narrow hw hi s.ports.n
  refine ⟨fun r hr => ?_, fun r hr => ?_, ?_, ?_⟩
  · exact (byte_of_answer_combineInteger_narrow bytewiseAs_and hw j hr).trans BitVec.and_zero
  · exact (byte_of_answer_combineInteger_narrow bytewiseAs_or hw j hr).trans BitVec.or_zero
  · exact answerDependsOnUsedInputsOnly (.andi 16) _ _ rfl ⟨rfl, value⟩
  · exact answerDependsOnUsedInputsOnly (.ori 16) _ _ rfl ⟨rfl, value⟩

/-! ### The laws of the Boolean commands (`41_boolean.md` R78) -/

/-- Buffers that agree byte by byte within the length have the same declared bytes. -/
theorem declared_congr {x y : Buffer} {len : Byte} (h : ∀ j : Fin 16, j.val < len.toNat → x[j.val] = y[j.val]) :
    declared x len = declared y len := by
  apply List.ext_getElem
  · simp [declared]
  · intro j hj _
    obtain ⟨hlen, hport⟩ : j < len.toNat ∧ j < 16 := by simpa [declared] using hj
    simpa [declared] using h ⟨j, hport⟩ hlen

theorem intValue_zero (cfg : Config) : intValue cfg 0 = 0 := by
  unfold intValue
  cases cfg.intWidth <;> rfl

theorem byteOfNumber_zero (len j : Nat) : byteOfNumber len j 0 = 0 := by
  simp [byteOfNumber]

theorem integerPattern_zero (cfg : Config) : integerPattern cfg 0 = 0 := by
  rw [integerPattern, intValue_zero, Int.zero_emod, Int.toNat_zero]

/-- Settles O27: the laws hold of each byte, by the whole answers above. -/
theorem booleanLaws : Obligations.BooleanLaws := by
  intro s lenA hlen
  have lengths : LengthsAccepted s.cfg.lenRule lenA lenA := .inl ⟨hlen, hlen⟩
  refine ⟨fun hb => ⟨?_, ?_⟩, fun hn => ?_⟩
  · obtain ⟨r, hr, he⟩ := andAnswersWhereAccepted s lenA lenA lengths
    refine ⟨_, congrArg answer he, rfl, declared_congr fun j hj => ?_⟩
    rw [hr, hb, BitVec.and_self, byteWithin, if_pos hj]
  · obtain ⟨r, hr, he⟩ := orAnswersWhereAccepted s lenA lenA lengths
    refine ⟨_, congrArg answer he, rfl, declared_congr fun j hj => ?_⟩
    rw [hr, hb, if_pos hj, byteWithin, if_pos hj, BitVec.or_self]
  have inRange : lenA = 4 → intValue s.cfg s.ports.n ≤ 0xFFFFFFFF := fun _ => by
    rw [hn, intValue_zero]
    decide
  have zero (j : Nat) : byteOfNumber lenA.toNat j (integerPattern s.cfg s.ports.n) = 0 := by
    rw [hn, integerPattern_zero, byteOfNumber_zero]
  constructor
  · obtain ⟨r, v, hr, -, he⟩ := andiAnswersWhereInRange s lenA hlen inRange
    refine ⟨_, congrArg answer he, rfl, Vector.ext fun j hj => ?_⟩
    simpa [zero] using hr ⟨j, hj⟩
  · obtain ⟨r, v, hr, -, he⟩ := oriAnswersWhereInRange s lenA hlen inRange
    refine ⟨_, congrArg answer he, rfl, declared_congr fun j hj => ?_⟩
    simpa [zero, hj] using hr j

end Sys2Proof.Machine

/-! SUPPORT. What the shift steps make of the 128-bit number of the working value, what SHR and SHL make of an address as a
number of its own width, and the statements about the shifts (`42_shift.md`). -/

namespace Sys2Proof.Machine

/-! ### The word-granularity steps (`42_shift.md` R92, R97) -/

/-- Settles O30: for a fixed `q` each word of a step evaluates to one of the old words or zero. -/
theorem wordStepsMoveWholeWords : Obligations.WordStepsMoveWholeWords :=
  fun _ _ _ _ => ⟨rfl, rfl, rfl, rfl, rfl, rfl, rfl, rfl⟩

/-! ### The bit-granularity steps (`42_shift.md` R93, R94, R98) -/

/-- `42_shift.md` R94: a residual count of zero leaves the words alone. -/
theorem bitRight_zero (w : Words) : bitRight w 0 = w := if_pos rfl

/-- `42_shift.md` R94: a residual count of zero leaves the words alone. -/
theorem bitLeft_zero (w : Words) : bitLeft w 0 = w := if_pos rfl

/-- Moved up by `32 - c` bits, a word is cut at bit `c`: its upper part reaches the next word and its lower part stays. -/
theorem mul_two_pow_sub_eq (a : Nat) {c : Nat} (hc : c ≤ 32) :
    a * 2 ^ (32 - c) = a / 2 ^ c * 2 ^ 32 + a % 2 ^ c * 2 ^ (32 - c) := by
  have whole : 2 ^ 32 = 2 ^ c * 2 ^ (32 - c) := by rw [← pow_add, Nat.add_sub_cancel' hc]
  rw [whole, ← Nat.mul_assoc, ← Nat.add_mul, Nat.div_add_mod']

/-- Moved up by `c` bits, a word is cut at bit `32 - c`. -/
theorem mul_two_pow_eq (a : Nat) {c : Nat} (hc : c ≤ 32) :
    a * 2 ^ c = a / 2 ^ (32 - c) * 2 ^ 32 + a % 2 ^ (32 - c) * 2 ^ c := by
  have cut := mul_two_pow_sub_eq a (Nat.sub_le 32 c)
  rwa [Nat.sub_sub_self hc] at cut

/-- A number whose last 32 bits are `lo`, moved down by at most 32 bits. -/
theorem mul_add_div_two_pow (hi lo : Nat) {c : Nat} (hc : c ≤ 32) :
    (hi * 2 ^ 32 + lo) / 2 ^ c = hi * 2 ^ (32 - c) + lo / 2 ^ c := by
  have whole : hi * 2 ^ 32 = 2 ^ c * (hi * 2 ^ (32 - c)) := by
    rw [Nat.mul_left_comm, ← pow_add, Nat.add_sub_cancel' hc]
  rw [whole, Nat.mul_add_div (by positivity)]

/-- The words of the right bit step as numbers, the bits a word loses standing at the top of the next one. -/
theorem V128_bitRight_of_ne_zero (w : Words) {c : BitVec 5} (hc : c ≠ 0) :
    V128 (bitRight w c) = w[0].toNat / 2 ^ c.toNat * 2 ^ 96 +
      (w[0].toNat % 2 ^ c.toNat * 2 ^ (32 - c.toNat) + w[1].toNat / 2 ^ c.toNat) * 2 ^ 64 +
      (w[1].toNat % 2 ^ c.toNat * 2 ^ (32 - c.toNat) + w[2].toNat / 2 ^ c.toNat) * 2 ^ 32 +
      (w[2].toNat % 2 ^ c.toNat * 2 ^ (32 - c.toNat) + w[3].toNat / 2 ^ c.toNat) := by
  have merge (a b : Word) := merge_right_toNat a b c.toNat c.isLt
  have top : (w[0] >>> c.toNat).toNat = w[0].toNat / 2 ^ c.toNat := by
    rw [BitVec.toNat_ushiftRight, Nat.shiftRight_eq_div_pow]
  rw [bitRight, if_neg hc, ← top, ← merge, ← merge, ← merge]
  rfl

/-- The words of the left bit step as numbers, the bits a word loses standing at the bottom of the one before it. -/
theorem V128_bitLeft_of_ne_zero (w : Words) {c : BitVec 5} (hc : c ≠ 0) :
    V128 (bitLeft w c) =
      (w[1].toNat / 2 ^ (32 - c.toNat) + w[0].toNat % 2 ^ (32 - c.toNat) * 2 ^ c.toNat) * 2 ^ 96 +
      (w[2].toNat / 2 ^ (32 - c.toNat) + w[1].toNat % 2 ^ (32 - c.toNat) * 2 ^ c.toNat) * 2 ^ 64 +
      (w[3].toNat / 2 ^ (32 - c.toNat) + w[2].toNat % 2 ^ (32 - c.toNat) * 2 ^ c.toNat) * 2 ^ 32 +
      w[3].toNat % 2 ^ (32 - c.toNat) * 2 ^ c.toNat := by
  have hz : c.toNat ≠ 0 := fun h => hc (BitVec.eq_of_toNat_eq h)
  have merge (a b : Word) := merge_left_toNat a b c.toNat c.isLt hz
  have bottom : (w[3] <<< c.toNat).toNat = w[3].toNat % 2 ^ (32 - c.toNat) * 2 ^ c.toNat := by
    simpa using merge 0 w[3]
  rw [bitLeft, if_neg hc, ← bottom, ← merge, ← merge, ← merge]
  rfl

/-- `42_shift.md` R93: the right bit step divides the 128-bit number. -/
theorem V128_bitRight (w : Words) (c : BitVec 5) : V128 (bitRight w c) = V128 w / 2 ^ c.toNat := by
  by_cases hc : c = 0
  · subst hc
    rw [bitRight_zero]
    exact (Nat.div_one _).symm
  have le : c.toNat ≤ 32 := c.isLt.le
  have words : V128 w = (w[0].toNat * 2 ^ 64 + w[1].toNat * 2 ^ 32 + w[2].toNat) * 2 ^ 32 + w[3].toNat := by
    rw [V128]
    ring
  rw [V128_bitRight_of_ne_zero w hc, words, mul_add_div_two_pow _ _ le]
  linear_combination -(2 ^ 64 * mul_two_pow_sub_eq w[0].toNat le + 2 ^ 32 * mul_two_pow_sub_eq w[1].toNat le +
    mul_two_pow_sub_eq w[2].toNat le)

/-- `42_shift.md` R98: the left bit step multiplies the 128-bit number, and what passes bit 127 is lost. -/
theorem V128_bitLeft (w : Words) (c : BitVec 5) : V128 (bitLeft w c) = V128 w * 2 ^ c.toNat % 2 ^ 128 := by
  by_cases hc : c = 0
  · subst hc
    rw [bitLeft_zero]
    show _ = V128 w * 1 % 2 ^ 128
    rw [Nat.mul_one, Nat.mod_eq_of_lt (V128_lt w)]
  have le : c.toNat ≤ 32 := c.isLt.le
  have product : V128 w * 2 ^ c.toNat = V128 (bitLeft w c) + 2 ^ 128 * (w[0].toNat / 2 ^ (32 - c.toNat)) := by
    rw [V128_bitLeft_of_ne_zero w hc, V128]
    linear_combination 2 ^ 96 * mul_two_pow_eq w[0].toNat le + 2 ^ 64 * mul_two_pow_eq w[1].toNat le +
      2 ^ 32 * mul_two_pow_eq w[2].toNat le + mul_two_pow_eq w[3].toNat le
  rw [product, Nat.add_mul_mod_self_left, Nat.mod_eq_of_lt (V128_lt _)]

/-- Settles O31: the short circuit at 0, and the two steps on the number. -/
theorem bitStepsShiftAcrossWords : Obligations.BitStepsShiftAcrossWords := fun w c =>
  ⟨bitRight_zero w, bitLeft_zero w, V128_bitRight w c, V128_bitLeft w c⟩

/-! ### The two steps together (`42_shift.md` R99) -/

/-- The residual count as the number `C` stands for. -/
theorem residual_toNat (count : Nat) : (BitVec.ofNat 5 (count % 32)).toNat = count % 32 := by
  rw [BitVec.toNat_ofNat, Nat.mod_mod]

/-- A count is its words and its residual bits. -/
theorem two_pow_words_mul_residual (count : Nat) : 2 ^ (32 * (count / 32)) * 2 ^ (count % 32) = 2 ^ count := by
  rw [← pow_add, Nat.div_add_mod]

theorem V128_right_steps (w : Words) {count : Nat} (h : count < 128) :
    V128 (bitRight (wordRight w (count / 32)) (BitVec.ofNat 5 (count % 32))) = V128 w / 2 ^ count := by
  rw [V128_bitRight, residual_toNat, wordRight_V128 _ _ (by omega), Nat.div_div_eq_div_mul, two_pow_words_mul_residual]

theorem V128_left_steps (w : Words) {count : Nat} (h : count < 128) :
    V128 (bitLeft (wordLeft w (count / 32)) (BitVec.ofNat 5 (count % 32))) = V128 w * 2 ^ count % 2 ^ 128 := by
  rw [V128_bitLeft, residual_toNat, wordLeft_V128 _ _ (by omega), Nat.mod_mul_mod, Nat.mul_assoc,
    two_pow_words_mul_residual]

/-! ### SHR and SHL as a whole next state (`42_shift.md` R95, R96) -/

theorem shiftCount_eq {cfg : Config} {n : BitVec 64} {count : Nat} (h : intValue cfg n = count) :
    shiftCount cfg n = count := by
  rw [shiftCount, h, Int.toNat_natCast]

section

variable {s : State} {lenA : Byte} {count : Nat} (hn : intValue s.cfg s.ports.n = count)

include hn

/-- The working value SHR stores, as a number. -/
theorem V128_shift_right : V128 (s.begin.shift wordRight bitRight lenA).w =
    if count < 128 then V128 (load s.ports.a lenA) / 2 ^ count else 0 := by
  rw [shift_w, shiftCount_eq hn]
  split_ifs with h
  · exact V128_right_steps _ h
  · exact V128_zero

/-- The working value SHL stores, as a number. -/
theorem V128_shift_left : V128 (s.begin.shift wordLeft bitLeft lenA).w =
    if count < 128 then V128 (load s.ports.a lenA) * 2 ^ count % 2 ^ 128 else 0 := by
  rw [shift_w, shiftCount_eq hn]
  split_ifs with h
  · exact V128_left_steps _ h
  · exact V128_zero

theorem not_shiftInvalid (hlen : ValidLen lenA) : ¬ ShiftInvalid s.cfg lenA s.ports.n := by
  rintro (bad | negative)
  · exact bad hlen
  · omega

/-- What the CORE holds after a shift that `check_shift` lets pass. -/
theorem shiftAddress_of_valid (wordStep : Words → Nat → Words) (bitStep : Words → BitVec 5 → Words)
    (hlen : ValidLen lenA) :
    shiftAddress wordStep bitStep lenA s = .next { s with
      w := (s.begin.shift wordStep bitStep lenA).w, v := Vector.replicate 4 0,
      c := if count < 128 then BitVec.ofNat 5 (count % 32) else 0,
      response := some ⟨0, lenA, storeBytes (s.begin.shift wordStep bitStep lenA).w lenA, 0,
        Vector.replicate 49 0⟩ } := by
  rw [shiftAddress_eq, if_neg (not_shiftInvalid hn hlen), State.store, Response.bytes, textOut_nil, shift_eq,
    shiftCount_eq hn]
  split_ifs <;> rfl

end

/-- The stored bytes are those of the number the working value stands for. -/
theorem storeBytes_get_byteOfNumber (w : Words) (len : Byte) (j : Fin 16) :
    (storeBytes w len)[j.val] = if j.val < len.toNat then byteOfNumber 16 j.val (V128 w) else 0 := by
  rw [storeBytes_get _ _ _ j.isLt, byteOf_eq_byteOfNumber]

/-- Settles O28: the number, its bytes and the whole next state are lemmas above, taken at SHR and at SHL. -/
theorem shiftsAreLogicalOn128Bits : Obligations.ShiftsAreLogicalOn128Bits := fun _ lenA _ hlen hn =>
  ⟨⟨_, _, V128_shift_right hn, storeBytes_get_byteOfNumber _ lenA, shiftAddress_of_valid hn _ _ hlen⟩,
    ⟨_, _, V128_shift_left hn, storeBytes_get_byteOfNumber _ lenA, shiftAddress_of_valid hn _ _ hlen⟩⟩

/-! ### An address as a number of its own width (`20_memory.md` R44) -/

/-- The buffer whose declared bytes are a number written as `len` big-endian bytes, zero beyond them. -/
def addressBytes (len : Byte) (v : Nat) : Buffer :=
  Vector.ofFn fun j : Fin 16 => if j.val < len.toNat then byteOfNumber len.toNat j.val v else 0

theorem validLen_le {len : Byte} (h : ValidLen len) : len.toNat ≤ 16 := by
  rcases h with rfl | rfl <;> decide

/-- The first bytes of a number of `n + k` bytes are the bytes of the number without its last `k`. -/
theorem byteOfNumber_add {n j : Nat} (k v : Nat) (hj : j < n) :
    byteOfNumber (n + k) j v = byteOfNumber n j (v / 2 ^ (8 * k)) := by
  rw [byteOfNumber, byteOfNumber, Nat.div_div_eq_div_mul, ← pow_add]
  congr 3
  omega

/-- `store` puts out the upper part of the 128-bit number, the address being in the first words. -/
theorem storeBytes_eq_addressBytes (w : Words) {len : Byte} (h : ValidLen len) :
    storeBytes w len = addressBytes len (V128 w / 2 ^ (128 - 8 * len.toNat)) := by
  have le := validLen_le h
  refine Vector.ext fun j hj => ?_
  rw [storeBytes_get_byteOfNumber w len ⟨j, hj⟩, addressBytes, Vector.getElem_ofFn]
  split_ifs with hin
  · have first := byteOfNumber_add (16 - len.toNat) (V128 w) hin
    rwa [Nat.add_sub_cancel' le, Nat.mul_sub] at first
  · rfl

/-- A word past the length is zero. -/
theorem load_get_of_not_lt {x : Buffer} {len : Byte} {i : Nat} (hi : i < 4) (h : ¬ 4 * i + 3 < len.toNat) :
    (load x len)[i] = 0 := by
  rw [load_get _ _ _ hi, if_neg h]

/-- `load` puts the address in the first words, the words past it being zero. -/
theorem V128_load_of_validLen (x : Buffer) {len : Byte} (h : ValidLen len) :
    V128 (load x len) = bigEndian (declared x len) * 2 ^ (128 - 8 * len.toNat) := by
  rcases h with rfl | rfl
  · have first : ((load x 4)[0]).toNat = bigEndian (declared x 4) := load_four_toNat x
    rw [V128, first, load_get_of_not_lt (i := 1) (by decide) (by decide),
      load_get_of_not_lt (i := 2) (by decide) (by decide), load_get_of_not_lt (i := 3) (by decide) (by decide)]
    simp
  · have all : declared x 16 = x.toList := List.take_of_length_le (by simp)
    rw [V128_load_sixteen, all]
    exact (Nat.mul_one _).symm

/-- An address is a number of its own width. -/
theorem bigEndian_declared_lt (x : Buffer) {len : Byte} (h : ValidLen len) :
    bigEndian (declared x len) < 2 ^ (8 * len.toNat) := by
  have le := validLen_le h
  have lt := V128_lt (load x len)
  rw [V128_load_of_validLen x h, ← Nat.add_sub_cancel' (show 8 * len.toNat ≤ 128 by omega), pow_add,
    Nat.add_sub_cancel_left] at lt
  exact Nat.lt_of_mul_lt_mul_right lt

/-- The big-endian bytes of a number stand for that number. -/
theorem bigEndian_byteOfNumber (n v : Nat) :
    bigEndian ((List.range n).map fun j => byteOfNumber n j v) = v % 2 ^ (8 * n) := by
  induction n generalizing v with
  | zero => simp [bigEndian, Nat.mod_one]
  | succ n ih =>
    have front : (List.range n).map (fun j => byteOfNumber (n + 1) j v) =
        (List.range n).map fun j => byteOfNumber n j (v / 2 ^ 8) :=
      List.map_congr_left fun j hj => byteOfNumber_add 1 v (List.mem_range.1 hj)
    have last : bigEndian [byteOfNumber (n + 1) n v] = v % 2 ^ 8 := by simp [bigEndian, byteOfNumber]
    rw [List.range_succ, List.map_append, bigEndian_append, front, ih, List.map_singleton, last, List.length_singleton,
      Nat.mul_one, Nat.mul_add_one, Nat.add_comm (8 * n), pow_add, Nat.mod_mul]
    ring

/-- The address `addressBytes` writes is the number it was given, where that fits. -/
theorem bigEndian_declared_addressBytes {len : Byte} {v : Nat} (h : ValidLen len) (hv : v < 2 ^ (8 * len.toNat)) :
    bigEndian (declared (addressBytes len v) len) = v := by
  have le := validLen_le h
  have bytes : declared (addressBytes len v) len = (List.range len.toNat).map fun j => byteOfNumber len.toNat j v := by
    apply List.ext_getElem
    · simp [declared, le]
    · intro j _ hj
      have hin : j < len.toNat := by simpa using hj
      simp [declared, addressBytes, hin]
  rw [bytes, bigEndian_byteOfNumber, Nat.mod_eq_of_lt hv]

/-! ### What SHR and SHL answer, at the address's own width -/

section

variable {s : State} {lenA : Byte} {k : Nat} (hlen : ValidLen lenA) (hn : intValue s.cfg s.ports.n = k)

include hlen hn

theorem answer_shift_of_valid (wordStep : Words → Nat → Words) (bitStep : Words → BitVec 5 → Words) :
    answer (shiftAddress wordStep bitStep lenA s) =
      some (.bytes lenA (storeBytes (s.begin.shift wordStep bitStep lenA).w lenA)) := by
  rw [answer_shiftAddress, if_neg (not_shiftInvalid hn hlen)]

/-- SHR divides the address. From a count of 128 on the quotient is zero by itself. -/
theorem answer_shr : answer (exec (.shr lenA) s) =
    some (.bytes lenA (addressBytes lenA (bigEndian (declared s.ports.a lenA) / 2 ^ k))) := by
  have le := validLen_le hlen
  have lt := bigEndian_declared_lt s.ports.a hlen
  have stored := answer_shift_of_valid hlen hn wordRight bitRight
  rw [storeBytes_eq_addressBytes _ hlen, V128_shift_right hn, V128_load_of_validLen _ hlen] at stored
  refine stored.trans (congrArg (fun v => some (Response.bytes lenA (addressBytes lenA v))) ?_)
  split_ifs with h
  · rw [Nat.div_right_comm, Nat.mul_div_cancel _ (by positivity)]
  · rw [Nat.zero_div, Nat.div_eq_of_lt (lt.trans_le (Nat.pow_le_pow_right (by decide) (by omega)))]

/-- SHL multiplies the address and keeps what fits. From a count of 128 on nothing does. -/
theorem answer_shl : answer (exec (.shl lenA) s) =
    some (.bytes lenA (addressBytes lenA (bigEndian (declared s.ports.a lenA) * 2 ^ k % 2 ^ (8 * lenA.toNat)))) := by
  have le := validLen_le hlen
  have stored := answer_shift_of_valid hlen hn wordLeft bitLeft
  rw [storeBytes_eq_addressBytes _ hlen, V128_shift_left hn, V128_load_of_validLen _ hlen] at stored
  refine stored.trans (congrArg (fun v => some (Response.bytes lenA (addressBytes lenA v))) ?_)
  split_ifs with h
  · have whole : 2 ^ 128 = 2 ^ (8 * lenA.toNat) * 2 ^ (128 - 8 * lenA.toNat) := by rw [← pow_add]; congr 1; omega
    rw [whole, Nat.mul_right_comm, Nat.mul_mod_mul_right, Nat.mul_div_cancel _ (by positivity)]
  · have fits : 2 ^ (8 * lenA.toNat) ∣ 2 ^ k := pow_dvd_pow 2 (by omega)
    rw [Nat.zero_div, Nat.mod_eq_zero_of_dvd (fits.mul_left _)]

/-- The address SHR answers, as a number. -/
theorem bigEndian_of_answer_shr {r : Response} (hr : answer (exec (.shr lenA) s) = some r) :
    bigEndian (declared r.r lenA) = bigEndian (declared s.ports.a lenA) / 2 ^ k := by
  rw [answer_shr hlen hn] at hr
  cases hr
  exact bigEndian_declared_addressBytes hlen ((Nat.div_le_self _ _).trans_lt (bigEndian_declared_lt _ hlen))

/-- The address SHL answers, as a number. -/
theorem bigEndian_of_answer_shl {r : Response} (hr : answer (exec (.shl lenA) s) = some r) :
    bigEndian (declared r.r lenA) = bigEndian (declared s.ports.a lenA) * 2 ^ k % 2 ^ (8 * lenA.toNat) := by
  rw [answer_shl hlen hn] at hr
  cases hr
  exact bigEndian_declared_addressBytes hlen (Nat.mod_lt _ (by positivity))

end

/-! ### The 4-byte case (`42_shift.md` R100) -/

theorem byteOf_eq_byteOfNumber_four (w : Word) (j : Fin 4) : byteOf j.val w = byteOfNumber 4 j.val w.toNat := by
  apply BitVec.eq_of_toNat_eq
  rw [byteOf_toNat, byteOfNumber, BitVec.toNat_ofNat]
  congr 3
  omega

/-- A byte of the 4-byte address that a word makes. -/
theorem addressBytes_four_get (w : Word) (j : Fin 4) : (addressBytes 4 w.toNat)[j.val] = byteOf j.val w := by
  rw [byteOf_eq_byteOfNumber_four, addressBytes, Vector.getElem_ofFn]
  exact if_pos j.isLt

/-- A 4-byte address as a number is its word. -/
theorem bigEndian_declared_four (x : Buffer) : bigEndian (declared x 4) = (be32 x[0] x[1] x[2] x[3]).toNat := by
  rw [declared, toList_eq_words]
  exact bigEndian_four _ _ _ _

/-- A logical right shift, cut off at the width, divides. -/
theorem toNat_ushiftRight_or_zero (a : Word) (count : Nat) :
    (if count ≤ 31 then a >>> count else 0).toNat = a.toNat / 2 ^ count := by
  split_ifs with h
  · rw [BitVec.toNat_ushiftRight, Nat.shiftRight_eq_div_pow]
  · exact (Nat.div_eq_of_lt (a.isLt.trans_le (Nat.pow_le_pow_right (by decide) (by omega)))).symm

/-- A logical left shift, cut off at the width, multiplies. -/
theorem toNat_shiftLeft_or_zero (a : Word) (count : Nat) :
    (if count ≤ 31 then a <<< count else 0).toNat = a.toNat * 2 ^ count % 2 ^ 32 := by
  split_ifs with h
  · rw [BitVec.toNat_shiftLeft, Nat.shiftLeft_eq]
  · have fits : 2 ^ 32 ∣ 2 ^ count := pow_dvd_pow 2 (by omega)
    exact (Nat.mod_eq_zero_of_dvd (fits.mul_left _)).symm

/-- Settles O29: the answers at the width of 32 bits, byte by byte. -/
theorem fourByteShifts : Obligations.FourByteShifts := by
  intro s count j hn a
  refine ⟨⟨_, answer_shr (.inl rfl) hn, rfl, rfl, ?_⟩, ⟨_, answer_shl (.inl rfl) hn, rfl, rfl, ?_⟩⟩
  · rw [← addressBytes_four_get, toNat_ushiftRight_or_zero, bigEndian_declared_four]
    rfl
  · rw [← addressBytes_four_get, toNat_shiftLeft_or_zero, bigEndian_declared_four]
    rfl

/-! ### The laws of the shifts (`42_shift.md` R101) -/

/-- A length that is not valid is answered before the count and the address are looked at. -/
theorem answer_shiftAddress_of_not_validLen (wordStep : Words → Nat → Words) (bitStep : Words → BitVec 5 → Words)
    {lenA : Byte} (h : ¬ ValidLen lenA) (s : State) :
    answer (shiftAddress wordStep bitStep lenA s) = some (.error .invalidAddress) := by
  rw [answer_shiftAddress, if_pos (.inl h)]

section

variable {s t u : State} {lenA : Byte} {j k : Nat} {r : Response} (hlen : ValidLen lenA)
  (hs : intValue s.cfg s.ports.n = k) (ht : intValue t.cfg t.ports.n = j) (hu : intValue u.cfg u.ports.n = (j + k : Nat))
  (hta : t.ports.a = r.r) (hua : u.ports.a = s.ports.a)

include hlen hs ht hu hta hua

/-- Dividing by `2 ^ k` and then by `2 ^ j` divides by the product. -/
theorem answer_shr_after_shr (hr : answer (exec (.shr lenA) s) = some r) :
    answer (exec (.shr lenA) t) = answer (exec (.shr lenA) u) := by
  rw [answer_shr hlen ht, answer_shr hlen hu, hta, hua, bigEndian_of_answer_shr hlen hs hr, Nat.div_div_eq_div_mul,
    ← pow_add, Nat.add_comm k]

/-- Multiplying by `2 ^ k` and then by `2 ^ j` multiplies by the product, the width being cut off in between or not. -/
theorem answer_shl_after_shl (hr : answer (exec (.shl lenA) s) = some r) :
    answer (exec (.shl lenA) t) = answer (exec (.shl lenA) u) := by
  rw [answer_shl hlen ht, answer_shl hlen hu, hta, hua, bigEndian_of_answer_shl hlen hs hr, Nat.mod_mul_mod,
    Nat.mul_assoc, ← pow_add, Nat.add_comm k]

end

/-- Settles O32: on an address of valid length the counts add up in the exponent, and on another every shift raises. -/
theorem shiftsCompose : Obligations.ShiftsCompose := by
  intro s t u lenA j k r i hi htc huc hs ht hu hr hta hua
  rw [← htc] at ht
  rw [← huc] at hu
  by_cases hlen : ValidLen lenA
  · rcases hi with rfl | rfl
    · exact answer_shr_after_shr hlen hs ht hu hta hua hr
    · exact answer_shl_after_shl hlen hs ht hu hta hua hr
  · have raised := fun ws bs => answer_shiftAddress_of_not_validLen ws bs hlen
    rcases hi with rfl | rfl
    · exact (raised wordRight bitRight t).trans (raised wordRight bitRight u).symm
    · exact (raised wordLeft bitLeft t).trans (raised wordLeft bitLeft u).symm

/-- Down and up again: nothing is left of a number moved by its whole width. -/
theorem div_mul_mod_two_pow {n width : Nat} (k : Nat) (h : n < 2 ^ width) :
    n / 2 ^ k * 2 ^ k % 2 ^ width = if k < width then n / 2 ^ k * 2 ^ k else 0 := by
  split_ifs with hk
  · exact Nat.mod_eq_of_lt ((Nat.div_mul_le_self _ _).trans_lt h)
  · rw [Nat.div_eq_of_lt (h.trans_le (Nat.pow_le_pow_right (by decide) (by omega))), Nat.zero_mul, Nat.zero_mod]

/-- Up and down again within a width: the highest `k` bits are gone. -/
theorem mul_mod_div_two_pow (n width k : Nat) :
    n * 2 ^ k % 2 ^ width / 2 ^ k = if k < width then n % 2 ^ (width - k) else 0 := by
  split_ifs with hk
  · rw [← Nat.sub_add_cancel hk.le, pow_add, Nat.mul_mod_mul_right, Nat.mul_div_cancel _ (by positivity),
      Nat.add_sub_cancel]
  · have fits : 2 ^ width ∣ 2 ^ k := pow_dvd_pow 2 (by omega)
    rw [Nat.mod_eq_zero_of_dvd (fits.mul_left _), Nat.zero_div]

/-- Settles O33: the number the second command answers, read off the first answer, and the two facts above about it. -/
theorem shiftThereAndBackLosesTheEnds : Obligations.ShiftThereAndBackLosesTheEnds := by
  intro s t lenA k r r' hlen htc hs ht hta width number
  rw [← htc] at ht
  constructor
  · intro hr hr'
    rw [bigEndian_of_answer_shl hlen ht hr', hta, bigEndian_of_answer_shr hlen hs hr]
    exact div_mul_mod_two_pow k (bigEndian_declared_lt s.ports.a hlen)
  · intro hr hr'
    rw [bigEndian_of_answer_shr hlen ht hr', hta, bigEndian_of_answer_shl hlen hs hr]
    exact mul_mod_div_two_pow _ _ _

end Sys2Proof.Machine

/-! SUPPORT. The numerals of a byte and of a group, the pieces of the two grammars read by their procedures, and the
statements about `dec`, `hex` and the IPv4 grammar (`43_text_codec.md` R112, R116, R126). -/

namespace Sys2Proof.Machine

/-! ### Numerals -/

/-- Settles O34: the branches of `dec` are the numbers of one, two and three digits. -/
theorem decIsTheDecimalNumeral : Obligations.DecIsTheDecimalNumeral := by
  intro b
  have lt := b.isLt
  have digit {d : Nat} := decChar_digit d
  unfold dec
  dsimp only
  split_ifs with h1 h2
  · exact ⟨[b.toNat], .cons (digit h1) .nil, by simp, rfl, by simp⟩
  · refine ⟨[b.toNat / 10, b.toNat % 10], .cons (digit (by omega)) (.cons (digit (by omega)) .nil), ?_, rfl, ?_⟩
    · simp only [List.foldl_cons, List.foldl_nil]; omega
    · simp only [List.head?_cons, Option.some.injEq]; omega
  · refine ⟨[b.toNat / 100, b.toNat / 10 % 10, b.toNat % 10],
      .cons (digit (by omega)) (.cons (digit (by omega)) (.cons (digit (by omega)) .nil)), ?_, rfl, ?_⟩
    · simp only [List.foldl_cons, List.foldl_nil]; omega
    · simp only [List.head?_cons, Option.some.injEq]; omega

/-- `hex` writes one digit character for each of one to four digits, the first not zero on more than one. -/
theorem hex_eq_map_hexChar (g : BitVec 16) : ∃ ds : List Nat,
    hex g = ds.map hexChar ∧ (∀ d ∈ ds, d < 16) ∧ ds.foldl (fun v d => 16 * v + d) 0 = g.toNat ∧
      1 ≤ ds.length ∧ ds.length ≤ 4 ∧ (ds.head? = some 0 → ds = [0]) := by
  have lt := g.isLt
  unfold hex
  dsimp only
  split_ifs with h1 h2 h3
  · exact ⟨[g.toNat], rfl, by simpa using h1, by simp, by simp, by simp, by simp⟩
  · refine ⟨[g.toNat / 0x10, g.toNat % 0x10], rfl, ?_, ?_, by simp, by simp, ?_⟩ <;> simp <;> omega
  · refine ⟨[g.toNat / 0x100, g.toNat / 0x10 % 0x10, g.toNat % 0x10], rfl, ?_, ?_, by simp, by simp, ?_⟩ <;>
      simp <;> omega
  · refine ⟨[g.toNat / 0x1000, g.toNat / 0x100 % 0x10, g.toNat / 0x10 % 0x10, g.toNat % 0x10], rfl, ?_, ?_, by simp,
      by simp, ?_⟩ <;> simp <;> omega

/-- Settles O35: what `hexChar` gives is a digit and no upper-case letter. -/
theorem hexIsTheLowerCaseNumeral : Obligations.HexIsTheLowerCaseNumeral := by
  refine ⟨fun g => ?_, by decide, by decide⟩
  obtain ⟨ds, hds, hlt, hvalue, hmin, hmax, hlead⟩ := hex_eq_map_hexChar g
  refine ⟨ds, ?_, hvalue, hmin, hmax, hlead, ?_⟩
  · rw [hds, List.forall₂_map_left_iff, List.forall₂_same]
    exact fun d hd => hexChar_digit d (hlt d hd)
  · rw [hds]
    intro c hc
    obtain ⟨d, hd, rfl⟩ := List.mem_map.1 hc
    exact hexChar_lower d (hlt d hd)

/-! ### The IPv4 grammar (`43_text_codec.md` R126) -/

/-- The digits a decimal numeral is read as. -/
theorem mapM_decValue_eq_some_iff {t : Text} {ds : List Nat} :
    t.mapM decValue = some ds ↔ List.Forall₂ IsDigit t ds := by
  simp only [mapM_forall₂, decValue_iff]

/-- The fields `parseField` accepts, by the digits it reads. -/
theorem parseField_eq_some_cases {t : Text} {b : Byte} (h : parseField t = some b) :
    (∃ x, List.Forall₂ IsDigit t [x] ∧ b = BitVec.ofNat 8 x) ∨
    (∃ x y, List.Forall₂ IsDigit t [x, y] ∧ x ≠ 0 ∧ b = BitVec.ofNat 8 (10 * x + y)) ∨
    ∃ x y z, List.Forall₂ IsDigit t [x, y, z] ∧ x ≠ 0 ∧ 100 * x + 10 * y + z ≤ 255 ∧
      b = BitVec.ofNat 8 (100 * x + 10 * y + z) := by
  unfold parseField at h
  split at h
  case h_1 x hx =>
    cases h
    exact .inl ⟨x, mapM_decValue_eq_some_iff.1 hx, rfl⟩
  case h_2 x y hxy =>
    split_ifs at h with hx
    cases h
    exact .inr (.inl ⟨x, y, mapM_decValue_eq_some_iff.1 hxy, hx, rfl⟩)
  case h_3 x y z hxyz =>
    split_ifs at h with hx
    cases h
    rw [not_or, Nat.not_lt] at hx
    exact .inr (.inr ⟨x, y, z, mapM_decValue_eq_some_iff.1 hxyz, hx.1, hx.2, rfl⟩)
  case h_4 => cases h

/-- `parseField` reads exactly the fields. -/
theorem parseField_eq_some_iff {t : Text} {b : Byte} :
    parseField t = some b ↔ ∃ n, V4Field t n ∧ b = BitVec.ofNat 8 n := by
  constructor
  · intro h
    rcases parseField_eq_some_cases h with ⟨x, hd, rfl⟩ | ⟨x, y, hd, hx, rfl⟩ | ⟨x, y, z, hd, hx, hle, rfl⟩
    · match t, hd with
      | [c], .cons hc .nil =>
        by_cases hx : x = 0
        · subst hx
          exact ⟨0, .zero c hc, rfl⟩
        · exact ⟨x, .one c x hc hx, rfl⟩
    · match t, hd with
      | [c, d], .cons hc (.cons hd .nil) => exact ⟨_, .two c d x y hc hx hd, rfl⟩
    · match t, hd with
      | [c, d, e], .cons hc (.cons hd (.cons he .nil)) => exact ⟨_, .three c d e x y z hc hx hd he hle, rfl⟩
  · rintro ⟨n, h, rfl⟩
    cases h with
    | zero c hc => simp [parseField, (decValue_iff _ _).2 hc]
    | one c a hc ha => simp [parseField, (decValue_iff _ _).2 hc]
    | two c d a b hc ha hd => simp [parseField, (decValue_iff _ _).2 hc, (decValue_iff _ _).2 hd, ha]
    | three c d e a b f hc ha hd he hle =>
      simp [parseField, (decValue_iff _ _).2 hc, (decValue_iff _ _).2 hd, (decValue_iff _ _).2 he, ha]
      omega

/-- A field is made of digits. -/
theorem V4Field.isDigit {t : Text} {n : Nat} (h : V4Field t n) : ∀ c ∈ t, ∃ v, IsDigit c v := by
  cases h with
  | zero c hc => simpa using ⟨0, hc⟩
  | one c a hc _ => simpa using ⟨_, hc⟩
  | two c d a b hc _ hd => simpa using ⟨⟨a, hc⟩, ⟨b, hd⟩⟩
  | three c d e a b f hc _ hd he _ => simpa using ⟨⟨a, hc⟩, ⟨b, hd⟩, ⟨f, he⟩⟩

theorem V4Field.dot_notMem {t : Text} {n : Nat} (h : V4Field t n) : dot ∉ t := fun hmem =>
  let ⟨_, hd⟩ := h.isDigit dot hmem
  digit_ne_dot hd rfl

theorem V4Field.colon_notMem {t : Text} {n : Nat} (h : V4Field t n) : colon ∉ t := fun hmem =>
  let ⟨_, hd⟩ := h.isDigit colon hmem
  digit_ne_colon hd rfl

theorem V4Field.length_bounds {t : Text} {n : Nat} (h : V4Field t n) : 1 ≤ t.length ∧ t.length ≤ 3 := by
  cases h <;> simp

/-- `parse4` reads the four fields between the dots. -/
theorem parse4_eq_some_iff {t : Text} {bs : List Byte} : parse4 t = some bs ↔ V4Text t bs := by
  constructor
  · intro h
    have joined := join_cutAt dot t
    unfold parse4 at h
    dsimp only at h
    split_ifs at h with hlen
    rw [mapM_forall₂] at h
    match hp : cutAt dot t, hlen, h with
    | [t0, t1, t2, t3], _, .cons h0 (.cons h1 (.cons h2 (.cons h3 .nil))) =>
      obtain ⟨n0, f0, rfl⟩ := parseField_eq_some_iff.1 h0
      obtain ⟨n1, f1, rfl⟩ := parseField_eq_some_iff.1 h1
      obtain ⟨n2, f2, rfl⟩ := parseField_eq_some_iff.1 h2
      obtain ⟨n3, f3, rfl⟩ := parseField_eq_some_iff.1 h3
      rw [← joined, hp]
      simpa [joinWith, dot] using V4Text.fields t0 t1 t2 t3 n0 n1 n2 n3 f0 f1 f2 f3
  · rintro ⟨t0, t1, t2, t3, n0, n1, n2, n3, f0, f1, f2, f3⟩
    have pieces : cutAt dot (joinWith dot [t0, t1, t2, t3]) = [t0, t1, t2, t3] := by
      refine cutAt_join dot _ (by simp) ?_
      simp [f0.dot_notMem, f1.dot_notMem, f2.dot_notMem, f3.dot_notMem]
    have text : t0 ++ [0x2E] ++ t1 ++ [0x2E] ++ t2 ++ [0x2E] ++ t3 = joinWith dot [t0, t1, t2, t3] := by
      simp [joinWith, dot]
    have read {u : Text} {n : Nat} (f : V4Field u n) := parseField_eq_some_iff.2 ⟨n, f, rfl⟩
    rw [text, parse4, pieces]
    simp [read f0, read f1, read f2, read f3]

/-- Settles O41: the pieces between the dots are the fields. -/
theorem parseFourReadsTheGrammar : Obligations.ParseFourReadsTheGrammar := fun _ _ => parse4_eq_some_iff

/-- `dec` writes a field. -/
theorem v4Field_dec (b : Byte) : V4Field (dec b) b.toNat := by
  have lt := b.isLt
  have digit {d : Nat} := decChar_digit d
  unfold dec
  dsimp only
  split_ifs with h1 h2
  · by_cases h0 : b.toNat = 0
    · rw [h0]
      exact .zero _ (digit (by omega))
    · exact .one _ _ (digit h1) h0
  · convert V4Field.two _ _ _ _ (digit _) _ (digit _) using 1 <;> omega
  · convert V4Field.three _ _ _ _ _ _ (digit _) _ (digit _) (digit _) _ using 1 <;> omega

end Sys2Proof.Machine

/-! SUPPORT. The groups of the IPv6 grammar, the items between single colons, where a text is split at `"::"`, and the
statement that the procedure of `43_text_codec.md` R130 reads the grammar of R127. -/

namespace Sys2Proof.Machine

/-! ### Joined texts -/

/-- The first item of several, the separator, and the others joined. -/
theorem joinWith_cons (sep : Byte) (t : Text) {ts : List Text} (h : ts ≠ []) :
    joinWith sep (t :: ts) = t ++ [sep] ++ joinWith sep ts := by
  cases ts with
  | nil => exact absurd rfl h
  | cons u us => simp [joinWith]

/-! ### Groups -/

/-- A group is one to four hexadecimal digits, and its value is theirs. -/
theorem hexGroup_iff {t : Text} {v : Nat} : HexGroup t v ↔
    (1 ≤ t.length ∧ t.length ≤ 4) ∧
      ∃ ds, List.Forall₂ IsHexDigit t ds ∧ ds.foldl (fun v d => 16 * v + d) 0 = v := by
  constructor
  · intro h
    induction h with
    | one c v hc => exact ⟨by simp, [v], .cons hc .nil, by simp⟩
    | more t n c v _ hlen hc ih =>
      obtain ⟨_, ds, hds, rfl⟩ := ih
      refine ⟨by simpa using hlen, ds ++ [v], List.rel_append hds (.cons hc .nil), ?_⟩
      rw [List.foldl_append]
      rfl
  · rintro ⟨hlen, ds, hds, rfl⟩
    induction t using List.reverseRecOn generalizing ds with
    | nil => simp at hlen
    | append_singleton t c ih =>
      rcases List.eq_nil_or_concat' ds with rfl | ⟨es, d, rfl⟩
      · simpa using hds.length_eq
      · rw [← List.forall₂_reverse_iff] at hds
        simp only [List.reverse_append, List.reverse_singleton, List.singleton_append, List.forall₂_cons,
          List.forall₂_reverse_iff] at hds
        obtain ⟨hc, hes⟩ := hds
        rw [List.foldl_append]
        by_cases ht : t = []
        · subst ht
          cases hes
          simpa using HexGroup.one c d hc
        · have pos := List.length_pos_iff.2 ht
          rw [List.length_append, List.length_singleton] at hlen
          exact .more _ _ _ _ (ih ⟨pos, by omega⟩ es hes) (by omega) hc

/-- `parseGroup` reads exactly the groups. -/
theorem parseGroup_eq_some_iff {t : Text} {v : Nat} : parseGroup t = some v ↔ HexGroup t v := by
  have digits : (∃ ds, t.mapM hexValue = some ds ∧ ds.foldl (fun v d => 16 * v + d) 0 = v) ↔
      ∃ ds, List.Forall₂ IsHexDigit t ds ∧ ds.foldl (fun v d => 16 * v + d) 0 = v := by
    simp only [mapM_forall₂, hexValue_iff]
  rw [hexGroup_iff, ← digits, parseGroup, Option.ite_none_right_eq_some, Option.map_eq_some_iff]

theorem HexGroup.isHexDigit {t : Text} {v : Nat} (h : HexGroup t v) : ∀ c ∈ t, ∃ d, IsHexDigit c d := by
  induction h with
  | one c v hc => simpa using ⟨v, hc⟩
  | more t n c v _ _ hc ih => simpa [or_imp, forall_and] using ⟨ih, v, hc⟩

theorem HexGroup.ne_nil {t : Text} {v : Nat} (h : HexGroup t v) : t ≠ [] := by
  rintro rfl
  obtain ⟨⟨hlen, _⟩, _⟩ := hexGroup_iff.1 h
  simp at hlen

theorem HexGroup.dot_notMem {t : Text} {v : Nat} (h : HexGroup t v) : dot ∉ t := fun hmem =>
  let ⟨_, hd⟩ := h.isHexDigit dot hmem
  hexDigit_ne_dot hd rfl

theorem HexGroup.colon_notMem {t : Text} {v : Nat} (h : HexGroup t v) : colon ∉ t := fun hmem =>
  let ⟨_, hd⟩ := h.isHexDigit colon hmem
  hexDigit_ne_colon hd rfl

theorem V4Text.colon_notMem {t : Text} {bs : List Byte} (h : V4Text t bs) : colon ∉ t := by
  obtain ⟨t0, t1, t2, t3, n0, n1, n2, n3, f0, f1, f2, f3⟩ := h
  have separator : colon ∉ [dot] := by decide
  change colon ∉ t0 ++ [dot] ++ t1 ++ [dot] ++ t2 ++ [dot] ++ t3
  simp only [List.mem_append, f0.colon_notMem, f1.colon_notMem, f2.colon_notMem, f3.colon_notMem, separator, or_self,
    not_false_eq_true]

theorem V4Text.dot_mem {t : Text} {bs : List Byte} (h : V4Text t bs) : dot ∈ t := by
  obtain ⟨t0, t1, t2, t3, n0, n1, n2, n3, f0, f1, f2, f3⟩ := h
  simp [dot]

theorem V4Text.length_eq {t : Text} {bs : List Byte} (h : V4Text t bs) : bs.length = 4 := by
  cases h
  rfl

/-! ### The items between single colons (`43_text_codec.md` R130) -/

/-- The last piece is a dotted-decimal text where one is allowed and a dot stands in it, and else a group. -/
theorem itemBytes_singleton (v4Allowed : Bool) (p : Text) :
    itemBytes v4Allowed [p] = if v4Allowed ∧ dot ∈ p then parse4 p else (parseGroup p).map groupBytes := rfl

/-- A piece that is not the last is a group. -/
theorem itemBytes_cons_eq_some_iff {v4Allowed : Bool} {p : Text} {ps : List Text} (hps : ps ≠ []) {bs : List Byte} :
    itemBytes v4Allowed (p :: ps) = some bs ↔
      ∃ v rest, HexGroup p v ∧ itemBytes v4Allowed ps = some rest ∧ groupBytes v ++ rest = bs := by
  cases ps with
  | nil => exact absurd rfl hps
  | cons q qs =>
    simp only [itemBytes, Option.bind_eq_bind, Option.bind_eq_some_iff, Option.pure_def, Option.some.injEq,
      parseGroup_eq_some_iff, exists_and_left]

/-- A group in front of a tail makes a tail. -/
theorem TailText.cons {t u : Text} {v : Nat} {bs : List Byte} (ht : HexGroup t v) (hu : TailText u bs) :
    TailText (t ++ [0x3A] ++ u) (groupBytes v ++ bs) := by
  cases hu with
  | groups u bs hg => exact .groups _ _ (.more t u bs v ht hg)
  | mixed u w bs qs hg hw => simpa [groupBytes] using TailText.mixed _ w _ qs (.more t u bs v ht hg) hw
  | dotted _ _ hw => exact .mixed t u _ _ (.one t v ht) hw

/-- What the pieces are read as is what the grammar makes of the text they are cut from. -/
theorem text_of_itemBytes {v4Allowed : Bool} {ps : List Text} (hps : ps ≠ []) {bs : List Byte}
    (h : itemBytes v4Allowed ps = some bs) :
    TailText (joinWith colon ps) bs ∧ (v4Allowed = false → GroupList (joinWith colon ps) bs) := by
  induction ps generalizing bs with
  | nil => exact absurd rfl hps
  | cons p ps ih =>
    by_cases hlast : ps = []
    · subst hlast
      rw [itemBytes_singleton] at h
      split_ifs at h with hdot
      · exact ⟨.dotted _ _ (parse4_eq_some_iff.1 h), fun hno => by simp [hno] at hdot⟩
      · obtain ⟨v, hv, rfl⟩ := Option.map_eq_some_iff.1 h
        have group := GroupList.one p v (parseGroup_eq_some_iff.1 hv)
        exact ⟨.groups _ _ group, fun _ => group⟩
    · obtain ⟨v, rest, hp, hrest, rfl⟩ := (itemBytes_cons_eq_some_iff hlast).1 h
      obtain ⟨tail, list⟩ := ih hlast hrest
      rw [joinWith_cons _ _ hlast]
      exact ⟨tail.cons hp, fun hno => .more _ _ _ _ hp (list hno)⟩

/-- A list of groups, alone or in front of more text, is read group by group. -/
theorem itemBytes_cutAt_groupList (v4Allowed : Bool) {t : Text} {bs : List Byte} (h : GroupList t bs) :
    itemBytes v4Allowed (cutAt colon t) = some bs ∧
      ∀ u rest, itemBytes v4Allowed (cutAt colon u) = some rest →
        itemBytes v4Allowed (cutAt colon (t ++ [colon] ++ u)) = some (bs ++ rest) := by
  have piece {t : Text} {v : Nat} (ht : HexGroup t v) (u : Text) (rest : List Byte)
      (hu : itemBytes v4Allowed (cutAt colon u) = some rest) :
      itemBytes v4Allowed (cutAt colon (t ++ [colon] ++ u)) = some (groupBytes v ++ rest) := by
    rw [List.append_assoc, List.singleton_append, cutAt_append _ _ _ ht.colon_notMem,
      itemBytes_cons_eq_some_iff (cutAt_ne_nil _ _)]
    exact ⟨v, rest, ht, hu, rfl⟩
  induction h with
  | one t v ht =>
    refine ⟨?_, piece ht⟩
    rw [cutAt_free _ _ ht.colon_notMem, itemBytes_singleton, if_neg (fun hdot => ht.dot_notMem hdot.2),
      parseGroup_eq_some_iff.2 ht]
    rfl
  | more t u bs v ht _ ih =>
    obtain ⟨alone, front⟩ := ih
    refine ⟨piece ht u bs alone, fun w rest hw => ?_⟩
    rw [List.append_assoc, List.append_assoc, ← List.append_assoc u, List.append_assoc _ bs]
    exact piece ht (u ++ [colon] ++ w) (bs ++ rest) (front w rest hw)

/-- A tail is read whole where a dotted-decimal text is allowed. -/
theorem itemBytes_cutAt_tailText {t : Text} {bs : List Byte} (h : TailText t bs) :
    itemBytes true (cutAt colon t) = some bs := by
  have dotted {u : Text} {qs : List Byte} (hu : V4Text u qs) : itemBytes true (cutAt colon u) = some qs := by
    rw [cutAt_free _ _ hu.colon_notMem, itemBytes_singleton, if_pos ⟨rfl, hu.dot_mem⟩, parse4_eq_some_iff.2 hu]
  cases h with
  | groups t bs hg => exact (itemBytes_cutAt_groupList true hg).1
  | mixed t u bs qs hg hu => exact (itemBytes_cutAt_groupList true hg).2 u qs (dotted hu)
  | dotted _ _ hu => exact dotted hu

/-- A text that begins with another character than a colon. -/
def StartsWithoutColon (t : Text) : Prop := ∃ c cs, t = c :: cs ∧ c ≠ colon

theorem StartsWithoutColon.ne_nil {t : Text} (h : StartsWithoutColon t) : t ≠ [] := by
  obtain ⟨c, cs, rfl, _⟩ := h
  simp

theorem StartsWithoutColon.append {t : Text} (h : StartsWithoutColon t) (u : Text) : StartsWithoutColon (t ++ u) := by
  obtain ⟨c, cs, rfl, hc⟩ := h
  exact ⟨c, cs ++ u, rfl, hc⟩

theorem startsWithoutColon_of_notMem {t : Text} (hne : t ≠ []) (h : colon ∉ t) : StartsWithoutColon t := by
  cases t with
  | nil => exact absurd rfl hne
  | cons c cs => exact ⟨c, cs, rfl, fun hc => h (by simp [hc])⟩

theorem HexGroup.startsWithoutColon {t : Text} {v : Nat} (h : HexGroup t v) : StartsWithoutColon t :=
  startsWithoutColon_of_notMem h.ne_nil h.colon_notMem

theorem GroupList.startsWithoutColon {t : Text} {bs : List Byte} (h : GroupList t bs) : StartsWithoutColon t := by
  cases h with
  | one t v ht => exact ht.startsWithoutColon
  | more t u bs v ht _ => exact (ht.startsWithoutColon.append _).append _

theorem V4Text.startsWithoutColon {t : Text} {bs : List Byte} (h : V4Text t bs) : StartsWithoutColon t :=
  startsWithoutColon_of_notMem (List.ne_nil_of_mem h.dot_mem) h.colon_notMem

theorem TailText.startsWithoutColon {t : Text} {bs : List Byte} (h : TailText t bs) : StartsWithoutColon t := by
  cases h with
  | groups t bs hg => exact hg.startsWithoutColon
  | mixed t u bs qs hg _ => exact (hg.startsWithoutColon.append _).append _
  | dotted _ _ hu => exact hu.startsWithoutColon

/-- `items` without a dotted-decimal tail reads a list of groups or nothing. -/
theorem items_false_eq_some_iff {t : Text} {bs : List Byte} :
    items false t = some bs ↔ GroupList t bs ∨ t = [] ∧ bs = [] := by
  unfold items
  split_ifs with ht
  · subst ht
    have empty : ¬ GroupList [] bs := fun h => h.startsWithoutColon.ne_nil rfl
    simp [empty, eq_comm]
  · simp only [ht, false_and, or_false]
    refine ⟨fun h => ?_, fun h => (itemBytes_cutAt_groupList false h).1⟩
    simpa only [join_cutAt] using (text_of_itemBytes (cutAt_ne_nil _ _) h).2 rfl

/-- `items` with a dotted-decimal tail allowed reads a tail or nothing. -/
theorem items_true_eq_some_iff {t : Text} {bs : List Byte} :
    items true t = some bs ↔ TailText t bs ∨ t = [] ∧ bs = [] := by
  unfold items
  split_ifs with ht
  · subst ht
    have empty : ¬ TailText [] bs := fun h => h.startsWithoutColon.ne_nil rfl
    simp [empty, eq_comm]
  · simp only [ht, false_and, or_false]
    refine ⟨fun h => ?_, itemBytes_cutAt_tailText⟩
    simpa only [join_cutAt] using (text_of_itemBytes (cutAt_ne_nil _ _) h).1

/-! ### Where a text is split at `"::"` (`43_text_codec.md` R130) -/

/-- No pattern of two or more colons stands at a character that is no colon, nor at a single colon. -/
theorem isPrefixOf_colons_eq_false {c : Byte} {u : Text} (h : c ≠ colon ∨ StartsWithoutColon u) (rest : Text) :
    (colon :: colon :: rest).isPrefixOf (c :: u) = false := by
  rcases h with hc | ⟨d, ds, rfl, hd⟩
  · rw [List.isPrefixOf, beq_eq_false_iff_ne.2 hc.symm, Bool.false_and]
  · rw [List.isPrefixOf, List.isPrefixOf, beq_eq_false_iff_ne.2 hd.symm, Bool.false_and, Bool.and_false]

theorem occurrences_cons {c : Byte} {u : Text} (h : c ≠ colon ∨ StartsWithoutColon u) (rest : Text) :
    occurrences (colon :: colon :: rest) (c :: u) = occurrences (colon :: colon :: rest) u := by
  rw [occurrences, isPrefixOf_colons_eq_false h, if_neg Bool.false_ne_true, Nat.zero_add]

theorem splitDouble_cons {c : Byte} {u : Text} (h : c ≠ colon ∨ StartsWithoutColon u) :
    splitDouble (c :: u) = (splitDouble u).map fun (l, r) => (c :: l, r) := by
  rw [splitDouble, isPrefixOf_colons_eq_false h, if_neg Bool.false_ne_true]

/-- Put in front of any text, `t` adds no place where a pattern of two or more colons stands, and none where the text is
split. -/
def AddsNoDoubleColon (t : Text) : Prop := ∀ u : Text,
  (∀ rest, occurrences (colon :: colon :: rest) (t ++ u) = occurrences (colon :: colon :: rest) u) ∧
    splitDouble (t ++ u) = (splitDouble u).map fun (l, r) => (t ++ l, r)

theorem addsNoDoubleColon_nil : AddsNoDoubleColon [] := fun u => ⟨fun _ => rfl, by simp⟩

theorem AddsNoDoubleColon.append {t u : Text} (ht : AddsNoDoubleColon t) (hu : AddsNoDoubleColon u) :
    AddsNoDoubleColon (t ++ u) := by
  intro w
  obtain ⟨hto, hts⟩ := ht (u ++ w)
  obtain ⟨huo, hus⟩ := hu w
  rw [List.append_assoc]
  refine ⟨fun rest => (hto rest).trans (huo rest), ?_⟩
  rw [hts, hus, Option.map_map]
  simp [Function.comp_def]

theorem addsNoDoubleColon_of_notMem {t : Text} (h : colon ∉ t) : AddsNoDoubleColon t := by
  induction t with
  | nil => exact addsNoDoubleColon_nil
  | cons c cs ih =>
    rw [List.mem_cons, not_or] at h
    obtain ⟨hc, hcs⟩ := h
    have single : AddsNoDoubleColon [c] := fun _ =>
      ⟨occurrences_cons (.inl (Ne.symm hc)), splitDouble_cons (.inl (Ne.symm hc))⟩
    exact single.append (ih hcs)

/-- A single colon in front of a text that begins with another character. -/
theorem AddsNoDoubleColon.colon_append {t : Text} (hs : StartsWithoutColon t) (ht : AddsNoDoubleColon t) :
    AddsNoDoubleColon ([colon] ++ t) := by
  intro u
  obtain ⟨ho, hsplit⟩ := ht u
  have single : colon ≠ colon ∨ StartsWithoutColon (t ++ u) := .inr (hs.append u)
  rw [List.append_assoc, List.singleton_append]
  refine ⟨fun rest => (occurrences_cons single rest).trans (ho rest), ?_⟩
  rw [splitDouble_cons single, hsplit, Option.map_map]
  rfl

theorem HexGroup.addsNoDoubleColon {t : Text} {v : Nat} (h : HexGroup t v) : AddsNoDoubleColon t :=
  addsNoDoubleColon_of_notMem h.colon_notMem

theorem GroupList.addsNoDoubleColon {t : Text} {bs : List Byte} (h : GroupList t bs) : AddsNoDoubleColon t := by
  induction h with
  | one t v ht => exact ht.addsNoDoubleColon
  | more t u bs v ht hu ih =>
    rw [List.append_assoc]
    exact ht.addsNoDoubleColon.append (.colon_append hu.startsWithoutColon ih)

theorem TailText.addsNoDoubleColon {t : Text} {bs : List Byte} (h : TailText t bs) : AddsNoDoubleColon t := by
  have dotted {u : Text} {qs : List Byte} (hu : V4Text u qs) := addsNoDoubleColon_of_notMem hu.colon_notMem
  cases h with
  | groups t bs hg => exact hg.addsNoDoubleColon
  | mixed t u bs qs hg hu =>
    rw [List.append_assoc]
    exact hg.addsNoDoubleColon.append (.colon_append hu.startsWithoutColon (dotted hu))
  | dotted _ _ hu => exact dotted hu

/-- A text of single colons has no place to be split at. -/
theorem no_double_colon {t : Text} (ht : AddsNoDoubleColon t) :
    occurrences [colon, colon, colon] t = 0 ∧ occurrences [colon, colon] t = 0 ∧ splitDouble t = none := by
  obtain ⟨ho, hsplit⟩ := ht []
  rw [List.append_nil] at ho hsplit
  exact ⟨ho [colon], ho [], hsplit⟩

/-- The counts and the split of a text with one `"::"` in it. -/
theorem double_colon_at {l r : Text} (hl : AddsNoDoubleColon l) (hr : AddsNoDoubleColon r)
    (hs : r = [] ∨ StartsWithoutColon r) :
    occurrences [colon, colon, colon] (l ++ [colon, colon] ++ r) = 0 ∧
      occurrences [colon, colon] (l ++ [colon, colon] ++ r) = 1 ∧
      splitDouble (l ++ [colon, colon] ++ r) = some (l, r) := by
  obtain ⟨ho, hsplit⟩ := hl ([colon, colon] ++ r)
  rw [← List.append_assoc] at ho hsplit
  have split : splitDouble (l ++ [colon, colon] ++ r) = some (l ++ [], r) := hsplit
  rw [ho [colon], ho [], split, List.append_nil]
  rcases hs with rfl | hs
  · exact ⟨by decide, by decide, rfl⟩
  · obtain ⟨h3, h2, -⟩ := no_double_colon hr
    have second (rest : Text) : occurrences (colon :: colon :: rest) ([colon, colon] ++ r) =
        (if rest.isPrefixOf r then 1 else 0) + occurrences (colon :: colon :: rest) r := by
      rw [← occurrences_cons (.inr hs) rest]
      rfl
    obtain ⟨c, cs, rfl, hc⟩ := hs
    have third : [colon].isPrefixOf (c :: cs) = false := by
      rw [List.isPrefixOf, beq_eq_false_iff_ne.2 hc.symm, Bool.false_and]
    exact ⟨by rw [second, third, h3]; rfl, by rw [second, h2]; rfl, rfl⟩

/-- The two parts with the `"::"` between them are the text. -/
theorem eq_of_splitDouble {t l r : Text} (h : splitDouble t = some (l, r)) : t = l ++ [colon, colon] ++ r := by
  induction t generalizing l with
  | nil => cases h
  | cons c cs ih =>
    unfold splitDouble at h
    split_ifs at h with hp
    · cases h
      obtain ⟨rest, hrest⟩ := List.isPrefixOf_iff_prefix.1 hp
      cases hrest
      rfl
    · obtain ⟨⟨l', r'⟩, hsplit, heq⟩ := Option.map_eq_some_iff.1 h
      cases heq
      rw [ih hsplit]
      rfl

/-! ### The procedure reads the grammar -/

theorem V6Text.length_eq {t : Text} {bs : List Byte} (h : V6Text t bs) : bs.length = 16 := by
  cases h with
  | full t bs _ hlen => exact hlen
  | compressed l r ls rs _ _ hlen =>
    simp only [List.length_append, List.length_replicate]
    omega

theorem v6Text_of_parse6 {t : Text} {bs : List Byte} (h : parse6 t = some bs) : V6Text t bs := by
  unfold parse6 at h
  split_ifs at h
  cases hd : splitDouble t with
  | some lr =>
    obtain ⟨l, r⟩ := lr
    simp only [hd, Option.bind_eq_bind, Option.bind_eq_some_iff, Option.ite_none_right_eq_some, Option.some.injEq] at h
    obtain ⟨ls, hl, rs, hr, hlen, rfl⟩ := h
    rw [eq_of_splitDouble hd]
    exact .compressed l r ls rs (items_false_eq_some_iff.1 hl) (items_true_eq_some_iff.1 hr) hlen
  | none =>
    simp only [hd, Option.bind_eq_bind, Option.bind_eq_some_iff, Option.ite_none_right_eq_some, Option.some.injEq] at h
    obtain ⟨_, ht, hlen, rfl⟩ := h
    rcases items_true_eq_some_iff.1 ht with tail | ⟨_, rfl⟩
    · exact .full t _ tail hlen
    · simp at hlen

theorem parse6_of_v6Text {t : Text} {bs : List Byte} (h : V6Text t bs) : parse6 t = some bs := by
  cases h with
  | full t bs ht hlen =>
    obtain ⟨h3, h2, hsplit⟩ := no_double_colon ht.addsNoDoubleColon
    simp [parse6, h3, h2, hsplit, items_true_eq_some_iff.2 (.inl ht), hlen]
  | compressed l r ls rs hl hr hlen =>
    have left : AddsNoDoubleColon l := by
      rcases hl with hl | ⟨rfl, _⟩
      · exact hl.addsNoDoubleColon
      · exact addsNoDoubleColon_nil
    have right : AddsNoDoubleColon r ∧ (r = [] ∨ StartsWithoutColon r) := by
      rcases hr with hr | ⟨rfl, _⟩
      · exact ⟨hr.addsNoDoubleColon, .inr hr.startsWithoutColon⟩
      · exact ⟨addsNoDoubleColon_nil, .inl rfl⟩
    obtain ⟨hadds, hstart⟩ := right
    obtain ⟨h3, h2, hsplit⟩ := double_colon_at left hadds hstart
    change parse6 (l ++ [colon, colon] ++ r) = _
    simp only [parse6, h3, h2, hsplit, items_false_eq_some_iff.2 hl, items_true_eq_some_iff.2 hr]
    simp [hlen]

/-- Settles O42: each direction is a lemma above. -/
theorem parseSixReadsTheGrammar : Obligations.ParseSixReadsTheGrammar := fun _ _ => ⟨v6Text_of_parse6, parse6_of_v6Text⟩

end Sys2Proof.Machine

/-! SUPPORT. The compressed run, and the texts FORMAT writes: their lengths, their characters, and that they are in the
grammars with the bytes they were written from (`43_text_codec.md` R113, R115, R117, R119, R129). -/

namespace Sys2Proof.Machine

/-! ### The compressed run (`43_text_codec.md` R115) -/

/-- The zeros from `s` on are `l ≥ 2` many, from no place more, and from no place further left as many. -/
def IsLongestLeftmost (gs : List (BitVec 16)) (s l : Nat) : Prop :=
  zeroRun (gs.drop s) = l ∧ 2 ≤ l ∧ ∀ i, zeroRun (gs.drop i) ≤ l ∧ (zeroRun (gs.drop i) = l → s ≤ i)

/-- Where the rest has no run, one of two groups or more at the front is the first. -/
theorem compressedRunFrom_cons_of_none {k : Nat} {gs : List (BitVec 16)} (h : compressedRunFrom (k + 1) gs = none)
    (g : BitVec 16) : compressedRunFrom k (g :: gs) =
      if 2 ≤ zeroRun (g :: gs) then some (k, zeroRun (g :: gs)) else none := by
  rw [compressedRunFrom, h]

/-- Where the rest has a run, one at the front that is no shorter takes its place. -/
theorem compressedRunFrom_cons_of_some {k : Nat} {gs : List (BitVec 16)} {s l : Nat}
    (h : compressedRunFrom (k + 1) gs = some (s, l)) (g : BitVec 16) : compressedRunFrom k (g :: gs) =
      if l ≤ zeroRun (g :: gs) then some (k, zeroRun (g :: gs)) else some (s, l) := by
  rw [compressedRunFrom, h]

/-- The recursion finds no run only where there are nowhere two zeros. -/
theorem zeroRun_drop_lt_two {k : Nat} {gs : List (BitVec 16)} (h : compressedRunFrom k gs = none) (i : Nat) :
    zeroRun (gs.drop i) < 2 := by
  induction gs generalizing k i with
  | nil => simp [zeroRun]
  | cons g gs ih =>
    cases hrest : compressedRunFrom (k + 1) gs with
    | some r =>
      rw [compressedRunFrom_cons_of_some hrest] at h
      split_ifs at h
    | none =>
      rw [compressedRunFrom_cons_of_none hrest] at h
      split_ifs at h with hl
      cases i with
      | zero => exact Nat.lt_of_not_le hl
      | succ i => exact ih hrest i

/-- The recursion finds the longest run, the leftmost on a tie, counted from `k`. -/
theorem isLongestLeftmost_of_compressedRunFrom {k : Nat} {gs : List (BitVec 16)} {s l : Nat}
    (h : compressedRunFrom k gs = some (s, l)) : ∃ i, s = k + i ∧ IsLongestLeftmost gs i l := by
  induction gs generalizing k s l with
  | nil => cases h
  | cons g gs ih =>
    cases hrest : compressedRunFrom (k + 1) gs with
    | none =>
      rw [compressedRunFrom_cons_of_none hrest] at h
      split_ifs at h with hl
      cases h
      refine ⟨0, rfl, rfl, hl, fun i => ?_⟩
      cases i with
      | zero => simp
      | succ i =>
        have short : zeroRun ((g :: gs).drop (i + 1)) < 2 := zeroRun_drop_lt_two hrest i
        omega
    | some r =>
      obtain ⟨s', l'⟩ := r
      obtain ⟨i', rfl, hrun, htwo, hmax⟩ := ih hrest
      rw [compressedRunFrom_cons_of_some hrest] at h
      split_ifs at h with hl
      · cases h
        refine ⟨0, rfl, rfl, htwo.trans hl, fun i => ?_⟩
        cases i with
        | zero => simp
        | succ i => exact ⟨(hmax i).1.trans hl, fun _ => Nat.zero_le _⟩
      · cases h
        refine ⟨i' + 1, by omega, hrun, htwo, fun i => ?_⟩
        cases i with
        | zero =>
          rw [List.drop_zero]
          omega
        | succ i =>
          obtain ⟨hle, hleft⟩ := hmax i
          exact ⟨hle, fun heq => Nat.succ_le_succ (hleft heq)⟩

/-- A zero in front makes the zeros from there on one more. -/
theorem zeroRun_drop_of_zero {gs : List (BitVec 16)} {i : Nat} (h : gs[i]? = some 0) :
    zeroRun (gs.drop i) = zeroRun (gs.drop (i + 1)) + 1 := by
  obtain ⟨hi, hzero⟩ := List.getElem?_eq_some_iff.1 h
  rw [List.drop_eq_getElem_cons hi, hzero, zeroRun, if_pos rfl]

/-- A zero run starts where the zeros could not start further left. -/
theorem IsLongestLeftmost.isCompressedRun {gs : List (BitVec 16)} {s l : Nat} (h : IsLongestLeftmost gs s l) :
    IsCompressedRun gs s l := by
  obtain ⟨hrun, htwo, hmax⟩ := h
  refine ⟨(isZeroRun_iff _ _ _).2 ⟨by omega, hrun, ?_⟩, htwo, fun s' l' hrun' => ?_⟩
  · cases s with
    | zero => exact .inl rfl
    | succ s =>
      refine .inr fun hzero => ?_
      have longer := zeroRun_drop_of_zero (i := s) hzero
      obtain ⟨hle, _⟩ := hmax s
      omega
  · obtain ⟨_, rfl, _⟩ := (isZeroRun_iff _ _ _).1 hrun'
    exact hmax s'

/-- What the procedure finds is the compressed run. -/
theorem isCompressedRun_of_compressedRun {gs : List (BitVec 16)} {s l : Nat} (h : compressedRun gs = some (s, l)) :
    IsCompressedRun gs s l := by
  obtain ⟨i, rfl, hrun⟩ := isLongestLeftmost_of_compressedRunFrom h
  rw [Nat.zero_add]
  exact hrun.isCompressedRun

/-- Where the procedure finds none there is no zero run of two groups. -/
theorem IsZeroRun.lt_two {gs : List (BitVec 16)} (h : compressedRun gs = none) {s l : Nat} (hrun : IsZeroRun gs s l) :
    l < 2 := by
  obtain ⟨_, rfl, _⟩ := (isZeroRun_iff _ _ _).1 hrun
  exact zeroRun_drop_lt_two h s

/-- There is one compressed run at most. -/
theorem IsCompressedRun.unique {gs : List (BitVec 16)} {s l s' l' : Nat} (h : IsCompressedRun gs s l)
    (h' : IsCompressedRun gs s' l') : s = s' ∧ l = l' := by
  obtain ⟨hrun, _, hmax⟩ := h
  obtain ⟨hrun', _, hmax'⟩ := h'
  have := hmax s' l' hrun'
  have := hmax' s l hrun
  omega

/-- The procedure finds every compressed run. -/
theorem compressedRun_of_isCompressedRun {gs : List (BitVec 16)} {s l : Nat} (h : IsCompressedRun gs s l) :
    compressedRun gs = some (s, l) := by
  cases hrun : compressedRun gs with
  | none =>
    obtain ⟨hzero, htwo, _⟩ := h
    have := hzero.lt_two hrun
    omega
  | some r =>
    obtain ⟨rfl, rfl⟩ := (isCompressedRun_of_compressedRun hrun).unique h
    rfl

/-- Settles O36: what the procedure finds is a compressed run, and there is one at most. -/
theorem compressedRunIsTheLongestLeftmost : Obligations.CompressedRunIsTheLongestLeftmost := by
  refine fun gs => ⟨fun s l => ⟨isCompressedRun_of_compressedRun, compressedRun_of_isCompressedRun⟩,
    fun h s l => IsZeroRun.lt_two h, fun h => ?_⟩
  cases hrun : compressedRun gs with
  | none => rfl
  | some r =>
    obtain ⟨hzero, htwo, _⟩ := isCompressedRun_of_compressedRun hrun
    have := h _ _ hzero
    omega

/-! ### Lengths of joined texts -/

/-- Items of at least `m` characters, joined. -/
theorem le_length_joinWith (sep : Byte) {m : Nat} {ts : List Text} (h : ∀ t ∈ ts, m ≤ t.length) :
    (m + 1) * ts.length ≤ (joinWith sep ts).length + 1 := by
  induction ts with
  | nil => simp
  | cons t ts ih =>
    rw [List.forall_mem_cons] at h
    obtain ⟨ht, hts⟩ := h
    by_cases hlast : ts = []
    · subst hlast
      simpa [joinWith] using ht
    · have rest := ih hts
      rw [joinWith_cons _ _ hlast]
      simp only [List.length_cons, List.length_append, List.length_nil, Nat.mul_add_one]
      omega

/-- Items of at most `m` characters, joined. -/
theorem length_joinWith_le (sep : Byte) {m : Nat} {ts : List Text} (h : ∀ t ∈ ts, t.length ≤ m) :
    (joinWith sep ts).length ≤ (m + 1) * ts.length - 1 := by
  induction ts with
  | nil => simp [joinWith]
  | cons t ts ih =>
    rw [List.forall_mem_cons] at h
    obtain ⟨ht, hts⟩ := h
    by_cases hlast : ts = []
    · subst hlast
      simpa [joinWith] using ht
    · have rest := ih hts
      have pos : (m + 1) * 1 ≤ (m + 1) * ts.length := Nat.mul_le_mul_left _ (List.length_pos_iff.2 hlast)
      rw [joinWith_cons _ _ hlast]
      simp only [List.length_cons, List.length_append, List.length_nil, Nat.mul_add_one]
      omega

/-- The characters of joined items are theirs and the separator. -/
theorem mem_of_mem_joinWith {sep c : Byte} {ts : List Text} (h : c ∈ joinWith sep ts) : c = sep ∨ ∃ t ∈ ts, c ∈ t := by
  induction ts with
  | nil => cases h
  | cons t ts ih =>
    by_cases hlast : ts = []
    · subst hlast
      exact .inr ⟨t, by simp, h⟩
    · rw [joinWith_cons _ _ hlast, List.mem_append, List.mem_append, List.mem_singleton] at h
      rcases h with (h | h) | h
      · exact .inr ⟨t, by simp, h⟩
      · exact .inl h
      · exact (ih h).imp id fun ⟨u, hu, hc⟩ => ⟨u, by simp [hu], hc⟩

/-! ### The text of four bytes (`43_text_codec.md` R113) -/

/-- The four bytes FORMAT reads of a 4-byte address. -/
theorem take_four (x : Buffer) : x.toList.take 4 = [x[0], x[1], x[2], x[3]] := by
  rw [toList_eq_words]
  rfl

/-- The dotted-decimal text, written out. -/
theorem format4_eq (a b c d : Byte) :
    format4 [a, b, c, d] = dec a ++ [dot] ++ dec b ++ [dot] ++ dec c ++ [dot] ++ dec d := by
  simp [format4, joinWith]

theorem v4Text_format4 (a b c d : Byte) : V4Text (format4 [a, b, c, d]) [a, b, c, d] := by
  have text := V4Text.fields _ _ _ _ _ _ _ _ (v4Field_dec a) (v4Field_dec b) (v4Field_dec c) (v4Field_dec d)
  simp only [BitVec.ofNat_toNat, BitVec.setWidth_eq] at text
  rw [format4_eq]
  exact text

/-- `43_text_codec.md` R119. -/
theorem length_format4 (a b c d : Byte) :
    7 ≤ (format4 [a, b, c, d]).length ∧ (format4 [a, b, c, d]).length ≤ 15 := by
  have ha := (v4Field_dec a).length_bounds
  have hb := (v4Field_dec b).length_bounds
  have hc := (v4Field_dec c).length_bounds
  have hd := (v4Field_dec d).length_bounds
  simp only [format4_eq, List.length_append, List.length_singleton]
  omega

/-! ### The text of sixteen bytes (`43_text_codec.md` R117) -/

/-- `hex` writes a group. -/
theorem hexGroup_hex (g : BitVec 16) : HexGroup (hex g) g.toNat := by
  obtain ⟨digits, _⟩ := hexIsTheLowerCaseNumeral
  obtain ⟨ds, hds, hvalue, hmin, hmax, _⟩ := digits g
  exact hexGroup_iff.2 ⟨by rw [hds.length_eq]; exact ⟨hmin, hmax⟩, ds, hds, hvalue⟩

theorem length_hex (g : BitVec 16) : 1 ≤ (hex g).length ∧ (hex g).length ≤ 4 :=
  (hexGroup_iff.1 (hexGroup_hex g)).1

/-- The bytes groups are read from, two each. -/
def bytesOfGroups (gs : List (BitVec 16)) : List Byte := gs.flatMap fun g => groupBytes g.toNat

theorem bytesOfGroups_append (gs hs : List (BitVec 16)) :
    bytesOfGroups (gs ++ hs) = bytesOfGroups gs ++ bytesOfGroups hs := List.flatMap_append

theorem length_bytesOfGroups (gs : List (BitVec 16)) : (bytesOfGroups gs).length = 2 * gs.length := by
  simp [bytesOfGroups, groupBytes, Nat.mul_comm]

theorem bytesOfGroups_replicate_zero (l : Nat) : bytesOfGroups (List.replicate l 0) = List.replicate (2 * l) 0 := by
  induction l with
  | zero => rfl
  | succ l ih =>
    have two : bytesOfGroups [0] = List.replicate 2 0 := by decide
    rw [List.replicate_succ', bytesOfGroups_append, ih, two, List.replicate_append_replicate, Nat.mul_add_one]

/-- A group of two bytes gives them back. -/
theorem groupBytes_append (a b : Byte) : groupBytes (a ++ b).toNat = [a, b] := by
  have hb := b.isLt
  rw [groupBytes, BitVec.toNat_append, ← Nat.shiftLeft_add_eq_or_of_lt hb, Nat.shiftLeft_eq]
  have hi : (a.toNat * 2 ^ 8 + b.toNat) / 256 = a.toNat := by omega
  have lo : (a.toNat * 2 ^ 8 + b.toNat) % 256 = b.toNat := by omega
  rw [hi, lo, BitVec.ofNat_toNat, BitVec.ofNat_toNat, BitVec.setWidth_eq, BitVec.setWidth_eq]

/-- The groups of a buffer are read from its bytes (`20_memory.md` R44). -/
theorem bytesOfGroups_groups (x : Buffer) : bytesOfGroups (groups x) = x.toList := by
  rw [bytesOfGroups, groups, toList_eq_words]
  simp [List.ofFn_succ, groupBytes_append]

/-- One or more groups between single colons. -/
theorem groupList_joinWith {gs : List (BitVec 16)} (h : gs ≠ []) :
    GroupList (joinWith colon (gs.map hex)) (bytesOfGroups gs) := by
  induction gs with
  | nil => exact absurd rfl h
  | cons g gs ih =>
    by_cases hlast : gs = []
    · subst hlast
      exact .one _ _ (hexGroup_hex g)
    · rw [List.map_cons, joinWith_cons _ _ (by simpa using hlast)]
      exact .more _ _ _ _ (hexGroup_hex g) (ih hlast)

/-- A zero run cuts the groups in three. -/
theorem IsZeroRun.eq_append {gs : List (BitVec 16)} {s l : Nat} (h : IsZeroRun gs s l) :
    gs = gs.take s ++ List.replicate l 0 ++ gs.drop (s + l) := by
  obtain ⟨_, hend, hzero, _⟩ := h
  have run : (gs.drop s).take l = List.replicate l 0 := by
    apply List.ext_getElem
    · rw [List.length_take_of_le (by rw [List.length_drop]; omega), List.length_replicate]
    · intro i _ hi
      rw [List.length_replicate] at hi
      obtain ⟨_, zero⟩ := List.getElem?_eq_some_iff.1 (hzero (s + i) (by omega) (by omega))
      rw [List.getElem_take, List.getElem_drop, List.getElem_replicate, zero]
  rw [← run, List.append_assoc, ← List.drop_drop, List.take_append_drop, List.take_append_drop]

theorem formatGroups_of_none {gs : List (BitVec 16)} (h : compressedRun gs = none) :
    formatGroups gs = joinWith colon (gs.map hex) := by
  rw [formatGroups, h]

theorem formatGroups_of_some {gs : List (BitVec 16)} {s l : Nat} (h : compressedRun gs = some (s, l)) :
    formatGroups gs = joinWith colon ((gs.take s).map hex) ++ [colon, colon] ++
      joinWith colon ((gs.drop (s + l)).map hex) := by
  rw [formatGroups, h]

/-- The colon-hex form of eight groups is in the grammar, with the bytes of the groups. -/
theorem v6Text_formatGroups {gs : List (BitVec 16)} (h : gs.length = 8) :
    V6Text (formatGroups gs) (bytesOfGroups gs) := by
  cases hrun : compressedRun gs with
  | none =>
    rw [formatGroups_of_none hrun]
    exact .full _ _ (.groups _ _ (groupList_joinWith (List.ne_nil_of_length_pos (by omega))))
      (by rw [length_bytesOfGroups, h])
  | some r =>
    obtain ⟨s, l⟩ := r
    obtain ⟨hzero, htwo, _⟩ := isCompressedRun_of_compressedRun hrun
    have hend : s + l ≤ gs.length := hzero.2.1
    have part (gs : List (BitVec 16)) : GroupList (joinWith colon (gs.map hex)) (bytesOfGroups gs) ∨
        joinWith colon (gs.map hex) = [] ∧ bytesOfGroups gs = [] := by
      by_cases hgs : gs = []
      · subst hgs
        exact .inr ⟨rfl, rfl⟩
      · exact .inl (groupList_joinWith hgs)
    have bytes : bytesOfGroups gs = bytesOfGroups (gs.take s) ++
        List.replicate (16 - (bytesOfGroups (gs.take s)).length - (bytesOfGroups (gs.drop (s + l))).length) 0 ++
        bytesOfGroups (gs.drop (s + l)) := by
      have zeros : 16 - 2 * (gs.take s).length - 2 * (gs.drop (s + l)).length = 2 * l := by
        rw [List.length_take, List.length_drop]
        omega
      rw [length_bytesOfGroups, length_bytesOfGroups, zeros, ← bytesOfGroups_replicate_zero, ← bytesOfGroups_append,
        ← bytesOfGroups_append, ← hzero.eq_append]
    rw [formatGroups_of_some hrun, bytes]
    refine .compressed _ _ _ _ (part _) ((part _).imp_left (.groups _ _)) ?_
    rw [length_bytesOfGroups, length_bytesOfGroups, List.length_take, List.length_drop]
    omega

theorem v6Text_format6 (x : Buffer) : V6Text (format6 x) x.toList := by
  have text := v6Text_formatGroups (groups_length x)
  rwa [bytesOfGroups_groups] at text

/-- `43_text_codec.md` R119. -/
theorem length_formatGroups {gs : List (BitVec 16)} (h : gs.length = 8) :
    2 ≤ (formatGroups gs).length ∧ (formatGroups gs).length ≤ 39 := by
  have upper (gs : List (BitVec 16)) : (joinWith colon (gs.map hex)).length ≤ 5 * gs.length - 1 := by
    simpa using length_joinWith_le colon (m := 4) (ts := gs.map hex) (by simpa using fun g _ => (length_hex g).2)
  cases hrun : compressedRun gs with
  | none =>
    have lower := le_length_joinWith colon (m := 0) (ts := gs.map hex) (by simp)
    have le := upper gs
    rw [List.length_map] at lower
    rw [formatGroups_of_none hrun]
    omega
  | some r =>
    obtain ⟨s, l⟩ := r
    obtain ⟨⟨_, hend, _⟩, htwo, _⟩ := isCompressedRun_of_compressedRun hrun
    have front := upper (gs.take s)
    have back := upper (gs.drop (s + l))
    rw [List.length_take_of_le (by omega)] at front
    rw [List.length_drop] at back
    rw [formatGroups_of_some hrun]
    simp only [List.length_append, List.length_cons, List.length_nil]
    omega

theorem length_format6 (x : Buffer) : 2 ≤ (format6 x).length ∧ (format6 x).length ≤ 39 :=
  length_formatGroups (groups_length x)

/-- No dot stands in the colon-hex form. -/
theorem dot_notMem_formatGroups (gs : List (BitVec 16)) : dot ∉ formatGroups gs := by
  have part (gs : List (BitVec 16)) : dot ∉ joinWith colon (gs.map hex) := fun hmem => by
    rcases mem_of_mem_joinWith hmem with h | ⟨t, ht, hdot⟩
    · exact absurd h (by decide)
    · obtain ⟨g, _, rfl⟩ := List.mem_map.1 ht
      exact (hexGroup_hex g).dot_notMem hdot
  cases hrun : compressedRun gs with
  | none =>
    rw [formatGroups_of_none hrun]
    exact part gs
  | some r =>
    obtain ⟨s, l⟩ := r
    have separator : dot ∉ [colon, colon] := by decide
    simp only [formatGroups_of_some hrun, List.mem_append, part, separator, or_self, not_false_eq_true]

end Sys2Proof.Machine

/-! SUPPORT. FORMAT and PARSE as whole next states, and the statements about the two commands and their round trip
(`43_text_codec.md` R111 to R129). -/

namespace Sys2Proof.Machine

/-! ### What the two commands leave -/

/-- A text response, field by field. -/
theorem text_eq (t : Text) :
    Response.text t = ⟨0, 0, Vector.replicate 16 0, BitVec.ofNat 8 t.length, textOut t⟩ := by
  rw [Response.text, bytesOut_nil]
  rfl

/-- A response that carries bytes, field by field. -/
theorem bytes_eq (len : Byte) (r : Buffer) : Response.bytes len r = ⟨0, len, r, 0, Vector.replicate 49 0⟩ := by
  rw [Response.bytes, textOut_nil]
  rfl

/-- FORMAT of 4 bytes. -/
theorem exec_format_four (s : State) : exec (.format 4) s =
    .next (s.begin.respond (.text (format4 [s.ports.a[0], s.ports.a[1], s.ports.a[2], s.ports.a[3]]))) := by
  rw [← take_four]
  rfl

/-- FORMAT of 16 bytes. -/
theorem exec_format_sixteen (s : State) :
    exec (.format 16) s = .next (s.begin.respond (.text (format6 s.ports.a))) := rfl

/-- Settles O37: the text is that of `format4_eq`. -/
theorem formatAnswersFourBytes : Obligations.FormatAnswersFourBytes := by
  intro s sep text
  have written : format4 [s.ports.a[0], s.ports.a[1], s.ports.a[2], s.ports.a[3]] = text := format4_eq _ _ _ _
  have bounds := length_format4 s.ports.a[0] s.ports.a[1] s.ports.a[2] s.ports.a[3]
  rw [written] at bounds
  obtain ⟨hmin, hmax⟩ := bounds
  refine ⟨textOut text, fun j => Vector.getElem_ofFn _, hmin, hmax, ?_⟩
  rw [exec_format_four, written, text_eq]
  rfl

/-- Settles O38: the run the text leaves out is the compressed run, by O36. -/
theorem formatAnswersSixteenBytes : Obligations.FormatAnswersSixteenBytes := by
  intro s gs
  obtain ⟨hmin, hmax⟩ := length_format6 s.ports.a
  refine ⟨formatGroups gs, textOut (formatGroups gs), fun hnone => ?_, fun n l hrun => ?_,
    fun j => Vector.getElem_ofFn _, hmin, hmax, ?_⟩
  · cases hrun : compressedRun gs with
    | none => exact formatGroups_of_none hrun
    | some r => exact absurd (isCompressedRun_of_compressedRun hrun) (hnone _ _)
  · exact formatGroups_of_some (compressedRun_of_isCompressedRun hrun)
  · rw [exec_format_sixteen, text_eq]
    rfl

/-! ### What FORMAT answers -/

/-- The text of an address of valid length. -/
def formatText (lenA : Byte) (x : Buffer) : Text :=
  if lenA = 4 then format4 (x.toList.take 4) else format6 x

theorem formatText_four (x : Buffer) : formatText 4 x = format4 [x[0], x[1], x[2], x[3]] := by
  rw [← take_four]
  rfl

theorem formatText_sixteen (x : Buffer) : formatText 16 x = format6 x := rfl

theorem answer_format {lenA : Byte} (h : ValidLen lenA) (s : State) :
    answer (exec (.format lenA) s) = some (.text (formatText lenA s.ports.a)) := by
  rcases h with rfl | rfl <;> rfl

/-- `43_text_codec.md` R119. -/
theorem length_formatText {lenA : Byte} (h : ValidLen lenA) (x : Buffer) : (formatText lenA x).length ≤ 39 := by
  rcases h with rfl | rfl
  · rw [formatText_four]
    exact (length_format4 _ _ _ _).2.trans (by decide)
  · exact (length_format6 x).2

/-- Settles O39: the length of the text is what `RTLEN` shows. -/
theorem formatLengthBounds : Obligations.FormatLengthBounds := by
  refine fun s r => ⟨fun hr => ?_, fun hr => ?_⟩
  · have bounds := length_format4 s.ports.a[0] s.ports.a[1] s.ports.a[2] s.ports.a[3]
    rw [answer_format (.inl rfl), formatText_four] at hr
    cases hr
    rwa [text_rtlen _ (by omega)]
  · have bounds := length_format6 s.ports.a
    rw [answer_format (.inr rfl), formatText_sixteen] at hr
    cases hr
    rwa [text_rtlen _ (by omega)]

/-- A text that fits the port is read off the response. -/
theorem text_of_response {t u : Text} (ht : t.length ≤ 39) (hu : u.length ≤ 39)
    (h : Response.text t = Response.text u) : t = u := by
  have lengths : t.length = u.length := by
    rw [← text_rtlen t (by omega), ← text_rtlen u (by omega), h]
  rw [← text_rt t (by omega), ← text_rt u (by omega), h, lengths]

/-! ### The text of an address is read back (`43_text_codec.md` R129) -/

theorem validLen_addressLen (f : Family) : ValidLen f.addressLen := by
  cases f with
  | v4 => exact .inl rfl
  | v6 => exact .inr rfl

theorem exists_addressLen_eq {lenA : Byte} (h : ValidLen lenA) : ∃ f : Family, f.addressLen = lenA := by
  rcases h with rfl | rfl
  · exact ⟨.v4, rfl⟩
  · exact ⟨.v6, rfl⟩

/-- The procedure of a family gives back the bytes the text was written from. -/
theorem parseAs_formatText (f : Family) (x : Buffer) :
    parseAs f (formatText f.addressLen x) = some (declared x f.addressLen) := by
  cases f with
  | v4 =>
    have bytes : declared x 4 = [x[0], x[1], x[2], x[3]] := take_four x
    change parse4 (formatText 4 x) = some (declared x 4)
    rw [formatText_four, bytes]
    exact parse4_eq_some_iff.2 (v4Text_format4 _ _ _ _)
  | v6 =>
    have bytes : declared x 16 = x.toList := List.take_of_length_le (by simp)
    change parse6 (format6 x) = some (declared x 16)
    rw [bytes]
    exact parse6_of_v6Text (v6Text_format6 x)

/-- A dot tells the two forms apart. -/
theorem dot_mem_formatText_iff {lenA : Byte} (h : ValidLen lenA) (x : Buffer) : dot ∈ formatText lenA x ↔ lenA = 4 := by
  rcases h with rfl | rfl
  · rw [formatText_four]
    exact iff_of_true (v4Text_format4 _ _ _ _).dot_mem rfl
  · exact iff_of_false (dot_notMem_formatGroups _) (by decide)

/-- A text is written for one length and one address only. -/
theorem formatText_injective {lenA lenB : Byte} (ha : ValidLen lenA) (hb : ValidLen lenB) {x y : Buffer}
    (h : formatText lenA x = formatText lenB y) : lenA = lenB ∧ declared x lenA = declared y lenB := by
  have lengths : lenA = 4 ↔ lenB = 4 := by
    rw [← dot_mem_formatText_iff ha x, h, dot_mem_formatText_iff hb y]
  obtain rfl : lenA = lenB := by
    rcases ha with rfl | rfl
    · exact (lengths.1 rfl).symm
    · exact (hb.resolve_left fun h4 => absurd (lengths.2 h4) (by decide)).symm
  obtain ⟨f, rfl⟩ := exists_addressLen_eq ha
  refine ⟨rfl, Option.some_injective _ ?_⟩
  rw [← parseAs_formatText, ← parseAs_formatText, h]

/-- Settles O40: PARSE's procedures read both texts back (`formatText_injective`), and equal declared bytes are answered
alike. -/
theorem formatIsInjective : Obligations.FormatIsInjective := by
  refine ⟨fun s lenA h => ⟨_, answer_format h s, rfl⟩, fun s t lenA lenB r ha hb hr => ⟨fun ht => ?_, ?_⟩⟩
  · rw [answer_format ha] at hr
    rw [answer_format hb, ← hr, Option.some.injEq] at ht
    exact formatText_injective ha hb (text_of_response (length_formatText hb _) (length_formatText ha _) ht).symm
  · rintro ⟨rfl, hdeclared⟩
    rw [← hr]
    exact answer_execFormat_congr hdeclared.symm

/-! ### PARSE, test by test (`43_text_codec.md` R125) -/

section

variable {s : State} {family tlen : Byte}

theorem exec_parse_of_too_long (h : textMax < tlen.toNat) :
    exec (.parse family tlen) s = .next (s.begin.raise .invalidAddress) :=
  if_pos h

theorem exec_parse_of_no_family (h : tlen.toNat ≤ textMax) (hf : familyOf family = none) :
    exec (.parse family tlen) s = .next (s.begin.raise .unsupportedFamily) := by
  simp only [exec, execParse, if_neg (Nat.not_lt.2 h), hf]

theorem exec_parse_of_no_address (h : tlen.toNat ≤ textMax) {f : Family} (hf : familyOf family = some f)
    (hp : parseAs f (s.ports.text tlen) = none) :
    exec (.parse family tlen) s = .next (s.begin.raise .invalidAddress) := by
  simp only [exec, execParse, if_neg (Nat.not_lt.2 h), hf, State.begin_ports, hp]

theorem exec_parse_of_address (h : tlen.toNat ≤ textMax) {f : Family} (hf : familyOf family = some f)
    {bs : List Byte} (hp : parseAs f (s.ports.text tlen) = some bs) :
    exec (.parse family tlen) s = .next (s.begin.respond (.bytes f.addressLen (bytesOut bs))) := by
  simp only [exec, execParse, if_neg (Nat.not_lt.2 h), hf, State.begin_ports, hp]

end

/-- Settles O43: the address is what the procedure of its family reads, by O41 and O42. -/
theorem parseAnswersAddressTexts : Obligations.ParseAnswersAddressTexts := by
  intro s family tlen bs hlen h
  refine ⟨bytesOut bs, fun j => Vector.getElem_ofFn _, ?_⟩
  rcases h with ⟨rfl, ht⟩ | ⟨rfl, ht⟩
  · have hp : parseAs .v4 (s.ports.text tlen) = some bs := parse4_eq_some_iff.2 ht
    refine ⟨ht.length_eq, ?_⟩
    rw [exec_parse_of_address hlen rfl hp, bytes_eq]
    rfl
  · have hp : parseAs .v6 (s.ports.text tlen) = some bs := parse6_of_v6Text ht
    refine ⟨ht.length_eq, ?_⟩
    rw [exec_parse_of_address hlen rfl hp, bytes_eq]
    rfl

/-- A command that raises, as a whole state. -/
theorem begin_raise_eq (s : State) (e : Status) : s.begin.raise e = { s with
    w := Vector.replicate 4 0, v := Vector.replicate 4 0, c := 0,
    response := some ⟨e.code, 0, Vector.replicate 16 0, 0, Vector.replicate 49 0⟩ } := by
  rw [State.raise, error_eq]
  rfl

/-- Settles O44: each failure is an equation above, and a text outside the grammar is read as nothing. -/
theorem parseTestsInOrder : Obligations.ParseTestsInOrder := by
  intro s family tlen failed
  have raised (e : Status) : s.begin.raise e = failed e.code := begin_raise_eq s e
  refine ⟨fun h => ?_, fun h h4 h6 => ?_, fun h hf hno => ?_, fun h hf hno => ?_⟩
  · rw [exec_parse_of_too_long h, raised]
    rfl
  · rw [exec_parse_of_no_family h ((familyOf_none _).2 ⟨h4, h6⟩), raised]
    rfl
  · have hp : parseAs .v4 (s.ports.text tlen) = none :=
      Option.eq_none_iff_forall_ne_some.2 fun bs hbs => hno bs (parse4_eq_some_iff.1 hbs)
    subst hf
    rw [exec_parse_of_no_address h rfl hp, raised]
    rfl
  · have hp : parseAs .v6 (s.ports.text tlen) = none :=
      Option.eq_none_iff_forall_ne_some.2 fun bs hbs => hno bs (v6Text_of_parse6 hbs)
    subst hf
    rw [exec_parse_of_no_address h rfl hp, raised]
    rfl

/-! ### The round trip (`43_text_codec.md` R129) -/

/-- The declared bytes of a result are the bytes put on the port. -/
theorem declared_bytesOut {bs : List Byte} {len : Byte} (h : bs.length = len.toNat) (hle : len.toNat ≤ 16) :
    declared (bytesOut bs) len = bs := by
  apply List.ext_getElem
  · simp [declared, h, hle]
  · intro i _ hi
    simp [declared, bytesOut, hi]

theorem length_declared (x : Buffer) {len : Byte} (hle : len.toNat ≤ 16) : (declared x len).length = len.toNat := by
  simp [declared, hle]

/-- PARSE of the text FORMAT answers gives the declared bytes back. -/
theorem exec_parse_formatText {f : Family} {family : Byte} (hf : familyOf family = some f) {x : Buffer} {t : State}
    (ht : t.ports.text (Response.text (formatText f.addressLen x)).rtlen = formatText f.addressLen x) :
    answer (exec (.parse family (Response.text (formatText f.addressLen x)).rtlen) t) =
      some (.bytes f.addressLen (bytesOut (declared x f.addressLen))) := by
  have short := length_formatText (validLen_addressLen f) x
  have within : (Response.text (formatText f.addressLen x)).rtlen.toNat ≤ textMax := by
    rw [text_rtlen _ (by omega)]
    exact short.trans (by decide)
  have read := parseAs_formatText f x
  rw [← ht] at read
  rw [exec_parse_of_address within hf read]
  rfl

/-- Settles O45: the text read from the port is the one FORMAT wrote, by `text_rt`; the counterexample is evaluated. -/
theorem parseUndoesFormat : Obligations.ParseUndoesFormat := by
  constructor
  · intro s t lenA family r h hr ht
    obtain ⟨f, hlen, hf⟩ : ∃ f : Family, f.addressLen = lenA ∧ familyOf family = some f := by
      rcases h with ⟨rfl, rfl⟩ | ⟨rfl, rfl⟩
      · exact ⟨.v4, rfl, rfl⟩
      · exact ⟨.v6, rfl, rfl⟩
    subst hlen
    have valid := validLen_addressLen f
    have short := length_formatText valid s.ports.a
    rw [answer_format valid] at hr
    cases hr
    have text : t.ports.text (Response.text (formatText f.addressLen s.ports.a)).rtlen =
        formatText f.addressLen s.ports.a := by
      rw [Command.text, ht, text_rtlen _ (by omega), text_rt _ (by omega)]
    have le := validLen_le valid
    exact ⟨_, exec_parse_formatText hf text, rfl, rfl, declared_bytesOut (length_declared _ le) le⟩
  · exact ⟨#v[0xFF, 0xFF, 0, 0, 0, 0, 0, 0, 0, 0, 0, 0, 0, 0, 0, 1], by decide, by decide⟩

end Sys2Proof.Machine


/-! SUPPORT. The status each command's tests give and the shape of the response that reports it, and the statements
about responses and errors (`60_exceptions.md`). -/

namespace Sys2Proof.Machine

/-! ### The shapes of a response (`60_exceptions.md` R150, R153) -/

/-- An error carries nothing. -/
theorem canonical_error (e : Status) : (Response.error e).Canonical := by
  rw [error_eq]
  exact ⟨fun _ => ⟨rfl, rfl⟩, .inl rfl, .inl rfl, Nat.zero_le _, fun j _ => Vector.getElem_replicate _,
    fun j _ => Vector.getElem_replicate _⟩

/-- A result of a whole number of words, zero beyond its length. -/
theorem canonical_bytes {len : Byte} {r : Buffer} (hlen : WholeWords len)
    (hzero : ∀ j : Fin 16, len.toNat ≤ j.val → r[j.val] = 0) : (Response.bytes len r).Canonical := by
  rw [bytes_eq]
  exact ⟨fun h => absurd rfl h, .inr rfl, hlen, Nat.zero_le _, hzero, fun j _ => Vector.getElem_replicate _⟩

/-- A text no longer than any address text, zero beyond its length. -/
theorem canonical_text {t : Text} (ht : t.length ≤ 39) : (Response.text t).Canonical := by
  have length : (Response.text t).rtlen.toNat = t.length := text_rtlen t (by omega)
  refine ⟨fun h => absurd rfl h, .inl rfl, .inl rfl, length.trans_le ht, fun j _ => ?_, fun j hj => ?_⟩
  · simp [Response.text, bytesOut]
  · simp [Response.text, textOut, length ▸ hj]

/-- `store` puts nothing beyond the length. -/
theorem storeBytes_eq_zero (w : Words) {len : Byte} (j : Fin 16) (h : len.toNat ≤ j.val) :
    (storeBytes w len)[j.val] = 0 := by
  rw [storeBytes_get _ _ _ j.isLt, if_neg (Nat.not_lt.2 h)]

/-- A list of bytes on the port puts nothing beyond its length. -/
theorem bytesOut_eq_zero {bs : List Byte} (j : Fin 16) (h : bs.length ≤ j.val) : (bytesOut bs)[j.val] = 0 := by
  simp [bytesOut, h]

/-- What a family's procedure reads has the family's length. -/
theorem length_of_parseAs {f : Family} {t : Text} {bs : List Byte} (h : parseAs f t = some bs) :
    bs.length = f.addressLen.toNat := by
  cases f with
  | v4 => exact (parse4_eq_some_iff.1 h).length_eq
  | v6 => exact (v6Text_of_parse6 h).length_eq

/-! ### The status of each command (`60_exceptions.md` R155) -/

/-- `InvalidAddress` where a test fails. -/
def invalidIf (p : Prop) [Decidable p] : Status := if p then .invalidAddress else .ok

section

variable {p : Prop} [Decidable p]

@[simp] theorem invalidIf_eq_invalidAddress_iff : invalidIf p = .invalidAddress ↔ p := by
  unfold invalidIf
  split_ifs with h <;> simp [h]

@[simp] theorem invalidIf_eq_ok_iff : invalidIf p = .ok ↔ ¬ p := by
  unfold invalidIf
  split_ifs with h <;> simp [h]

@[simp] theorem invalidIf_ne_unsupportedFamily : invalidIf p ≠ .unsupportedFamily := by
  unfold invalidIf
  split_ifs <;> decide

@[simp] theorem invalidIf_ne_illegalCommand : invalidIf p ≠ .illegalCommand := by
  unfold invalidIf
  split_ifs <;> decide

end

/-- The status PARSE's tests give, in their order (`43_text_codec.md` R125). -/
def parseStatus (family tlen : Byte) (s : State) : Status :=
  if textMax < tlen.toNat then .invalidAddress
  else
    match familyOf family with
    | none => .unsupportedFamily
    | some f => invalidIf (parseAs f (s.ports.text tlen) = none)

section

variable {family tlen : Byte} {s : State}

theorem parseStatus_of_too_long (h : textMax < tlen.toNat) : parseStatus family tlen s = .invalidAddress := if_pos h

theorem parseStatus_of_no_family (h : tlen.toNat ≤ textMax) (hf : familyOf family = none) :
    parseStatus family tlen s = .unsupportedFamily := by
  simp only [parseStatus, if_neg (Nat.not_lt.2 h), hf]

theorem parseStatus_of_family (h : tlen.toNat ≤ textMax) {f : Family} (hf : familyOf family = some f) :
    parseStatus family tlen s = invalidIf (parseAs f (s.ports.text tlen) = none) := by
  simp only [parseStatus, if_neg (Nat.not_lt.2 h), hf]

end

/-- The status the tests of a command give. `status_of_answer` says that it is the one the CORE answers; an AND or OR
that `check_two` leaves undefined passes here and is answered by nothing. -/
def testStatus (i : Instr) (s : State) : Status :=
  match i with
  | .parse family tlen => parseStatus family tlen s
  | .format lenA => invalidIf (¬ ValidLen lenA)
  | .shl lenA => invalidIf (ShiftInvalid s.cfg lenA s.ports.n)
  | .shr lenA => invalidIf (ShiftInvalid s.cfg lenA s.ports.n)
  | .and lenA lenB => invalidIf (checkTwo s.cfg.lenRule lenA lenB = .invalid)
  | .andi lenA => invalidIf (IntegerInvalid s.cfg lenA s.ports.n)
  | .or lenA lenB => invalidIf (checkTwo s.cfg.lenRule lenA lenB = .invalid)
  | .ori lenA => invalidIf (IntegerInvalid s.cfg lenA s.ports.n)

/-! ### What a command answers reports that status -/

/-- A response that reports a status, in one of the shapes of `60_exceptions.md` R150 and R153. -/
structure Response.Reports (r : Response) (e : Status) : Prop where
  status : r.status = e.code
  canonical : r.Canonical

theorem reports_error (e : Status) : (Response.error e).Reports e := ⟨rfl, canonical_error e⟩

theorem reports_store (w : Words) {len : Byte} (h : WholeWords len) :
    (Response.bytes len (storeBytes w len)).Reports .ok :=
  ⟨rfl, canonical_bytes h (storeBytes_eq_zero w)⟩

theorem reports_text {t : Text} (h : t.length ≤ 39) : (Response.text t).Reports .ok := ⟨rfl, canonical_text h⟩

theorem reports_address {f : Family} {t : Text} {bs : List Byte} (h : parseAs f t = some bs) :
    (Response.bytes f.addressLen (bytesOut bs)).Reports .ok :=
  ⟨rfl, canonical_bytes (valid_whole (validLen_addressLen f)) fun j hj =>
    bytesOut_eq_zero j ((length_of_parseAs h).trans_le hj)⟩

/-- One test decides between the error response and the result. -/
theorem reports_ite {p : Prop} [Decidable p] {r : Response} (h : ¬ p → r.Reports .ok) :
    (if p then Response.error .invalidAddress else r).Reports (invalidIf p) := by
  unfold invalidIf
  split_ifs with hp
  · exact reports_error _
  · exact h hp

section

variable {s : State} {r : Response}

theorem reports_of_answer_shiftAddress {wordStep : Words → Nat → Words} {bitStep : Words → BitVec 5 → Words}
    {lenA : Byte} (h : answer (shiftAddress wordStep bitStep lenA s) = some r) :
    r.Reports (invalidIf (ShiftInvalid s.cfg lenA s.ports.n)) := by
  rw [answer_shiftAddress] at h
  cases h
  exact reports_ite fun hp => reports_store _ (valid_whole (not_not.1 (not_or.1 hp).1))

theorem reports_of_answer_combineInteger {f : Word → Word → Word} {lenA : Byte}
    (h : answer (combineInteger f lenA s) = some r) :
    r.Reports (invalidIf (IntegerInvalid s.cfg lenA s.ports.n)) := by
  rw [answer_combineInteger] at h
  cases h
  exact reports_ite fun hp => reports_store _ (valid_whole (not_not.1 (not_or.1 hp).1))

theorem reports_of_answer_combineAddresses {f : Word → Word → Word} {lenA lenB : Byte}
    (h : answer (combineAddresses f lenA lenB s) = some r) :
    r.Reports (invalidIf (checkTwo s.cfg.lenRule lenA lenB = .invalid)) := by
  rw [answer_combineAddresses] at h
  cases hv : checkTwo s.cfg.lenRule lenA lenB with
  | invalid => rw [hv] at h; cases h; exact reports_error .invalidAddress
  | undefinedResult => rw [hv] at h; cases h
  | accepted => rw [hv] at h; cases h; exact reports_store _ (accepted_whole (checkTwo_accepted.1 hv)).1

theorem reports_of_answer_format {lenA : Byte} (h : answer (exec (.format lenA) s) = some r) :
    r.Reports (invalidIf (¬ ValidLen lenA)) := by
  change answer (execFormat lenA s) = some r at h
  rw [answer_execFormat, ← apply_ite] at h
  cases h
  exact reports_ite fun hp => reports_text (length_formatText (not_not.1 hp) s.ports.a)

theorem reports_of_answer_parse {family tlen : Byte} (h : answer (exec (.parse family tlen) s) = some r) :
    r.Reports (parseStatus family tlen s) := by
  rcases Nat.lt_or_ge textMax tlen.toNat with long | short
  · rw [exec_parse_of_too_long long] at h
    cases h
    rw [parseStatus_of_too_long long]
    exact reports_error _
  cases hf : familyOf family with
  | none =>
    rw [exec_parse_of_no_family short hf] at h
    cases h
    rw [parseStatus_of_no_family short hf]
    exact reports_error _
  | some f =>
    rw [parseStatus_of_family short hf]
    cases hp : parseAs f (s.ports.text tlen) with
    | none =>
      rw [exec_parse_of_no_address short hf hp] at h
      cases h
      rw [invalidIf_eq_invalidAddress_iff.2 rfl]
      exact reports_error _
    | some bs =>
      rw [exec_parse_of_address short hf hp] at h
      cases h
      rw [invalidIf_eq_ok_iff.2 (by simp)]
      exact reports_address hp

/-- Whatever a command answers has the shape of a response and reports the status its tests give. -/
theorem reports_of_answer {i : Instr} (h : answer (exec i s) = some r) : r.Reports (testStatus i s) := by
  cases i with
  | parse family tlen => exact reports_of_answer_parse h
  | format lenA => exact reports_of_answer_format h
  | shl lenA => exact reports_of_answer_shiftAddress h
  | shr lenA => exact reports_of_answer_shiftAddress h
  | and lenA lenB => exact reports_of_answer_combineAddresses h
  | andi lenA => exact reports_of_answer_combineInteger h
  | or lenA lenB => exact reports_of_answer_combineAddresses h
  | ori lenA => exact reports_of_answer_combineInteger h

theorem code_eq_iff {d e : Status} : d.code = e.code ↔ d = e := by
  cases d <;> cases e <;> decide

/-- The status a command answers is the one its tests give. -/
theorem status_of_answer {i : Instr} (h : answer (exec i s) = some r) (e : Status) :
    r.status = e.code ↔ testStatus i s = e := by
  rw [(reports_of_answer h).status, code_eq_iff]

end

/-! ### Every step keeps the shape of responses -/

/-- Settles O9: a new response is `IllegalCommand` or what a command answers (`reports_of_answer`). -/
theorem stepKeepsResponsesCanonical : Obligations.StepKeepsResponsesCanonical := by
  intro s t hs h
  rcases step_next_cases h with ⟨-, rfl⟩ | ⟨rest, -, rfl⟩ | ⟨c, rest, -, rfl⟩ | ⟨c, rest, e, -, -, rfl⟩ |
    ⟨c, rest, i, -, -, he⟩
  · exact hs
  · exact State.inv_of_response_eq_none rfl
  · exact State.inv_of_response_eq_none rfl
  · intro r hr
    cases hr
    exact canonical_error _
  · intro r hr
    have hanswer : answer (exec i (s.accept c rest)) = some r := by rw [he]; exact hr
    exact (reports_of_answer hanswer).canonical

/-! ### Every issued command is answered -/

/-- A command the host may issue is not one that `check_two` leaves undefined. -/
theorem checkTwo_ne_undefinedResult {i : Instr} {cfg : Config} {lenA lenB : Byte} (h : i.wellFormed cfg)
    (hi : i = .and lenA lenB ∨ i = .or lenA lenB) : checkTwo cfg.lenRule lenA lenB ≠ .undefinedResult := by
  rcases hi with rfl | rfl <;> exact of_decide_eq_true h

/-- A command the host may issue is answered, and the host's list stays. -/
theorem exec_answers {i : Instr} {s : State} (h : i.wellFormed s.cfg) :
    ∃ t r, exec i s = .next t ∧ t.response = some r ∧ t.host = s.host := by
  rcases exec_cases i s with ⟨t, r, he, -, hhost, -, hr⟩ | ⟨lenA, lenB, hi, hcheck, -⟩
  · exact ⟨t, r, he, hr, hhost⟩
  · exact absurd hcheck (checkTwo_ne_undefinedResult h hi)

/-- Settles O6: an illegal word is answered by `State.illegal`, a command by `exec_answers`. -/
theorem everyIssuedCommandIsAnswered : Obligations.EveryIssuedCommandIsAnswered := by
  intro s c rest hh hwf
  cases hd : decode c.cmd with
  | error e => exact ⟨_, _, step_issue_illegal hh hd, rfl, rfl⟩
  | ok i =>
    rw [step_issue_legal hh hd]
    exact exec_answers (hwf i hd)

/-! ### The cause of each error (`60_exceptions.md` R151, R152, R154) -/

theorem parseStatus_eq_unsupportedFamily_iff {family tlen : Byte} {s : State} :
    parseStatus family tlen s = .unsupportedFamily ↔ family ≠ 4 ∧ family ≠ 6 ∧ tlen.toNat ≤ 49 := by
  rw [← and_assoc, ← familyOf_none]
  rcases Nat.lt_or_ge textMax tlen.toNat with long | short
  · rw [parseStatus_of_too_long long]
    exact iff_of_false (by decide) fun ⟨_, short⟩ => Nat.not_le.2 long short
  cases hf : familyOf family with
  | none => exact iff_of_true (parseStatus_of_no_family short hf) ⟨rfl, short⟩
  | some f =>
    rw [parseStatus_of_family short hf]
    exact iff_of_false invalidIf_ne_unsupportedFamily (by simp)

/-- Settles O46: no test but PARSE's gives that status. -/
theorem unsupportedFamilyHasOneCause : Obligations.UnsupportedFamilyHasOneCause := by
  intro i s r h
  refine (status_of_answer h .unsupportedFamily).trans ?_
  cases i with
  | parse family tlen =>
    rw [testStatus, parseStatus_eq_unsupportedFamily_iff]
    simp
  | _ => simp [testStatus]

/-- The two failures of PARSE that answer `InvalidAddress`, the grammar's being told by the grammars themselves. -/
theorem parseStatus_eq_invalidAddress_iff {family tlen : Byte} {s : State} :
    parseStatus family tlen s = .invalidAddress ↔
      49 < tlen.toNat ∨
        (family = 4 ∧ ∀ bs, ¬ V4Text (s.ports.t.toList.take tlen.toNat) bs) ∨
        (family = 6 ∧ ∀ bs, ¬ V6Text (s.ports.t.toList.take tlen.toNat) bs) := by
  have no4 : parseAs .v4 (s.ports.text tlen) = none ↔ ∀ bs, ¬ V4Text (s.ports.t.toList.take tlen.toNat) bs :=
    Option.eq_none_iff_forall_ne_some.trans (forall_congr' fun _ => not_congr parse4_eq_some_iff)
  have no6 : parseAs .v6 (s.ports.text tlen) = none ↔ ∀ bs, ¬ V6Text (s.ports.t.toList.take tlen.toNat) bs :=
    Option.eq_none_iff_forall_ne_some.trans (forall_congr' fun _ => not_congr (parseSixReadsTheGrammar _ _))
  rw [← no4, ← no6]
  rcases Nat.lt_or_ge textMax tlen.toNat with long | short
  · exact iff_of_true (parseStatus_of_too_long long) (.inl long)
  have notLong : ¬ 49 < tlen.toNat := Nat.not_lt.2 short
  by_cases h4 : family = 4
  · subst h4
    rw [parseStatus_of_family (f := .v4) short rfl]
    simp [notLong]
  by_cases h6 : family = 6
  · subst h6
    rw [parseStatus_of_family (f := .v6) short rfl]
    simp [notLong]
  · rw [parseStatus_of_no_family short ((familyOf_none family).2 ⟨h4, h6⟩)]
    simp only [notLong, h4, h6, false_and, or_self, reduceCtorEq]

/-- Settles O47: each line of the table is the test of its command. -/
theorem invalidAddressCauses : Obligations.InvalidAddressCauses := by
  intro i s r h
  refine (status_of_answer h .invalidAddress).trans ?_
  cases i with
  | parse family tlen => exact parseStatus_eq_invalidAddress_iff
  | format lenA => exact invalidIf_eq_invalidAddress_iff
  | shl lenA => exact invalidIf_eq_invalidAddress_iff
  | shr lenA => exact invalidIf_eq_invalidAddress_iff
  | and lenA lenB => exact invalidIf_eq_invalidAddress_iff.trans invalid_iff
  | andi lenA => exact invalidIf_eq_invalidAddress_iff
  | or lenA lenB => exact invalidIf_eq_invalidAddress_iff.trans invalid_iff
  | ori lenA => exact invalidIf_eq_invalidAddress_iff

theorem parseStatus_ne_illegalCommand (family tlen : Byte) (s : State) :
    parseStatus family tlen s ≠ .illegalCommand := by
  rcases Nat.lt_or_ge textMax tlen.toNat with long | short
  · rw [parseStatus_of_too_long long]
    decide
  cases hf : familyOf family with
  | none => rw [parseStatus_of_no_family short hf]; decide
  | some f => rw [parseStatus_of_family short hf]; exact invalidIf_ne_illegalCommand

/-- A legal word is never answered `IllegalCommand`. -/
theorem testStatus_ne_illegalCommand (i : Instr) (s : State) : testStatus i s ≠ .illegalCommand := by
  cases i with
  | parse family tlen => exact parseStatus_ne_illegalCommand family tlen s
  | _ => exact invalidIf_ne_illegalCommand

/-- Settles O48: the words of no row are those the decoder refuses, and a command that runs answers otherwise. -/
theorem illegalCommandHasOneCause : Obligations.IllegalCommandHasOneCause := by
  intro cfg c r h
  rw [← illegalWord_iff_not_spells, ← exists_decode_error_iff_illegalWord]
  unfold responseTo at h
  cases hd : decode c.cmd with
  | error e =>
    rw [step_issue_illegal rfl hd] at h
    cases h
    exact iff_of_true rfl ⟨e, rfl⟩
  | ok i =>
    rw [step_issue_legal rfl hd] at h
    refine iff_of_false (fun h3 => ?_) (by simp)
    exact testStatus_ne_illegalCommand _ _ ((status_of_answer h .illegalCommand).1 h3)

/-! ### What a failed precondition leaves (`60_exceptions.md` R153) -/

/-- A command whose own test fails raises `InvalidAddress` and does nothing else. -/
theorem exec_of_failed_precondition {s : State} {lenA lenB : Byte} {i : Instr}
    (h : (i = .format lenA ∧ ¬ ValidLen lenA) ∨
      ((i = .shl lenA ∨ i = .shr lenA) ∧ ShiftInvalid s.cfg lenA s.ports.n) ∨
      ((i = .andi lenA ∨ i = .ori lenA) ∧ IntegerInvalid s.cfg lenA s.ports.n) ∨
      ((i = .and lenA lenB ∨ i = .or lenA lenB) ∧ checkTwo s.cfg.lenRule lenA lenB = .invalid)) :
    exec i s = .next (s.begin.raise .invalidAddress) := by
  rcases h with ⟨rfl, hlen⟩ | ⟨rfl | rfl, hshift⟩ | ⟨rfl | rfl, hint⟩ | ⟨hi, hcheck⟩
  · exact if_pos hlen
  · exact (shiftAddress_eq ..).trans (if_pos hshift)
  · exact (shiftAddress_eq ..).trans (if_pos hshift)
  · exact (combineInteger_eq ..).trans (if_pos hint)
  · exact (combineInteger_eq ..).trans (if_pos hint)
  · obtain ⟨f, hexec⟩ := exists_exec_eq_combineAddresses hi
    rw [hexec, combineAddresses_eq, hcheck]

/-- Settles O49: the test fails, and `begin_raise_eq` is the state the error leaves. -/
theorem failedPreconditionsAnswerInvalidAddress : Obligations.FailedPreconditionsAnswerInvalidAddress := by
  intro s lenA lenB i h
  rw [← invalid_iff] at h
  exact (exec_of_failed_precondition h).trans (congrArg _ (begin_raise_eq s .invalidAddress))

/-! ### The idle CORE (`60_exceptions.md` R161) -/

/-- Settles O3: an empty host list is the idle step. -/
theorem idleStepChangesNothing : Obligations.IdleStepChangesNothing := fun _ => step_idle

end Sys2Proof.Machine


/-! SUPPORT. A command's step does not see what the CORE held before, from one step to a whole run, and the statements about
reset and hazards (`70_reset_and_hazards.md`). -/

namespace Sys2Proof.Machine

/-! ### A command cut off by reset (`70_reset_and_hazards.md` R171) -/

/-- A command's step sees only the state it is accepted in. -/
theorem step_congr_of_accept_eq {s t : State} {c : Command} {rest : List HostAction} (hs : s.host = .issue c :: rest)
    (ht : t.host = .issue c :: rest) (h : s.accept c rest = t.accept c rest) : step s = step t := by
  cases hd : decode c.cmd with
  | error e => rw [step_issue_illegal hs hd, step_issue_illegal ht hd, h]
  | ok i => rw [step_issue_legal hs hd, step_issue_legal ht hd, h]

/-- A CORE that was reset accepts a command in the state of one just out of reset: the old samples, the one field reset
keeps besides the parameters and the host's list, are overwritten. -/
theorem applyReset_accept (s : State) (c : Command) (rest host : List HostAction) :
    s.applyReset.accept c rest = { State.resetWith s.cfg with host := host }.accept c rest := rfl

/-- Settles O2: the abandoned command leaves the state of `State.applyReset`, and `applyReset_accept` is what the next
command starts from. -/
theorem abortedCommandLeavesNoTrace : Obligations.AbortedCommandLeavesNoTrace := fun s c _ _ hh =>
  ⟨_, step_issueAborted hh, rfl, step_congr_of_accept_eq rfl rfl (applyReset_accept (s.accept c _) _ _ _)⟩

/-! ### One command, whatever the CORE held (`60_exceptions.md` R158) -/

theorem sameUsedInputs_refl (cfg : Config) (p : Command) (i : Instr) : SameUsedInputs cfg p p i := by
  cases i with
  | parse family tlen => exact fun _ => rfl
  | format lenA => exact rfl
  | _ => exact ⟨rfl, rfl⟩

/-- A command is answered as after reset: its inputs are sampled anew, and its answer depends on nothing else. -/
theorem answer_step_issue {s : State} {c : Command} {rest : List HostAction} (hh : s.host = .issue c :: rest) :
    answer (step s) = responseTo s.cfg c := by
  unfold responseTo
  cases hd : decode c.cmd with
  | error e => rw [step_issue_illegal hh hd, step_issue_illegal rfl hd]; rfl
  | ok i =>
    rw [step_issue_legal hh hd, step_issue_legal rfl hd]
    exact answerDependsOnUsedInputsOnly i _ _ rfl (sameUsedInputs_refl _ c i)

/-- A command the host may issue: an illegal word, or a well-formed command (`70_reset_and_hazards.md` R177). -/
def Command.Issuable (cfg : Config) (c : Command) : Prop := ∀ i, decode c.cmd = .ok i → i.wellFormed cfg

theorem responseTo_ne_none {cfg : Config} {c : Command} (hc : c.Issuable cfg) : responseTo cfg c ≠ none := by
  obtain ⟨t, r, hstep, hr, -⟩ :=
    everyIssuedCommandIsAnswered { State.resetWith cfg with host := [.issue c] } c [] rfl hc
  simp [responseTo, hstep, answer, hr]

/-- The step of a command the host may issue, as far as a run sees it. -/
theorem exists_step_issue {s : State} {c : Command} {rest : List HostAction} (hh : s.host = .issue c :: rest)
    (hc : c.Issuable s.cfg) :
    ∃ t, step s = .next t ∧ t.cfg = s.cfg ∧ t.host = rest ∧ t.response = responseTo s.cfg c := by
  obtain ⟨t, _, hstep, -, hhost⟩ := everyIssuedCommandIsAnswered s c rest hh hc
  obtain ⟨hcfg, -⟩ := stepKeepsTheParameters s t hstep
  exact ⟨t, hstep, hcfg, hhost, by rw [← answer_step_issue hh, hstep]; rfl⟩

/-! ### A run of commands (`70_reset_and_hazards.md` R176) -/

theorem responses_succ {s t : State} (h : step s = .next t) (k : Nat) :
    responses (k + 1) s = t.response :: responses k t := by
  rw [responses, h]

theorem run_succ {M : Host.Core} {s t : M.State} (h : M.step s = .next t) (k : Nat) : M.run (k + 1) s = M.run k t := by
  rw [Host.Core.run, h]

/-- A run of issued commands answers each as after reset, and uses up the host's list. -/
theorem run_issued {cs : List Command} {s : State} (hh : s.host = cs.map .issue) (hcs : ∀ c ∈ cs, c.Issuable s.cfg) :
    responses cs.length s = cs.map (responseTo s.cfg) ∧ ∃ t, core.run cs.length s = .next t ∧ t.host = [] := by
  induction cs generalizing s with
  | nil => exact ⟨rfl, s, rfl, hh⟩
  | cons c cs ih =>
    obtain ⟨hc, hrest⟩ := List.forall_mem_cons.1 hcs
    obtain ⟨t, hstep, hcfg, hhost, hresponse⟩ := exists_step_issue hh hc
    rw [← hcfg] at hrest
    obtain ⟨hresponses, hrun⟩ := ih hhost hrest
    rw [List.length_cons, responses_succ hstep, run_succ (M := core) hstep, hresponses, hresponse, hcfg]
    exact ⟨rfl, hrun⟩

/-- Settles O11: `run_issued` gives the answers and the emptied list; none is missing (`responseTo_ne_none`), and a CORE
with nothing to do is idle. -/
theorem runAnswersEachCommandAlone : Obligations.RunAnswersEachCommandAlone := by
  intro s cs hh hcs
  obtain ⟨hresponses, t, hrun, hhost⟩ := run_issued hh hcs
  refine ⟨hresponses, fun r hr => ?_, t, hrun, step_idle hhost⟩
  rw [hresponses] at hr
  obtain ⟨c, hc, rfl⟩ := List.mem_map.1 hr
  exact responseTo_ne_none (hcs c hc)

end Sys2Proof.Machine
